-- ==== Sys2Proof/Word.lean ====
section
/-!
DEFINITION. The words of the EmbeddedProject display core. Bit 0 is the least significant bit of every value
(spec/00_scope.md R11); every value is unsigned (R11, R12).
-/
namespace Sys2Proof

/-- A segment pattern, a digit-select mask, or a byte on the wire (spec/30_encoding.md R70, R71). -/
abbrev Byte := BitVec 8

/-- A frame, a display value, or the contents of a stage of the external register
(spec/30_encoding.md R72, R73; spec/10_state.md R36). -/
abbrev Word := BitVec 16

/-- A command word on the port `cmd` (spec/30_encoding.md R75). -/
abbrev CmdWord := BitVec 24

end Sys2Proof
end

