-- ==== Sys2Proof/Syntax.lean ====
section
/-!
DEFINITION. The five operations of the block, which take the place of instructions (spec/00_scope.md R2), one
constructor per row of spec/opcode_table.json. The fields have the widths of the word's operand fields
(spec/30_encoding.md R78 to R82), so every term is an instruction that a word can carry.
-/
namespace Sys2Proof

/-- An operation with its operands, as the accept step samples them (spec/30_encoding.md R83). -/
inductive Instr where
  /-- `ENC d, dp`, format E (R78): encode one digit. Digits 10 to 15 are legal words, rejected at run time (R104). -/
  | enc (digit : BitVec 4) (dp : Bool)
  /-- `SEND b`, format S (R79): put one byte on the data line. -/
  | send (byte : Byte)
  /-- `LATCH l`, format L (R80): drive the latch line. -/
  | latch (level : Bool)
  /-- `WRITE s, m`, format W (R81): send one frame and show it. -/
  | write (seg dsel : Byte)
  /-- `RENDER v` and `RENDER v, i`, format R (R82): show a value once. `dpidx` has no effect when `dpen` is false. -/
  | render (value : Word) (dpen : Bool) (dpidx : BitVec 2)
deriving DecidableEq, Repr

end Sys2Proof
end

