-- ==== Sys2Proof/WellFormed.lean ====
section
/-!
DEFINITION. Commands as an assembler reads them (spec/30_encoding.md R86), with operands that are plain numbers, and
the check by which the assembler refuses an operand that does not fit its field. Terms of `Instr` need no check: their
fields have the widths of the word's fields.
-/
namespace Sys2Proof

/-- One command in assembler syntax: the five mnemonics, the four pseudo-instructions and the directive `.word`
(spec/30_encoding.md R86). -/
inductive AsmCmd where
  /-- `ENC d` and `ENC d, dp`. -/
  | enc (d : Nat) (dp : Option Nat)
  /-- `SEND b`. -/
  | send (b : Nat)
  /-- `LATCH l`. -/
  | latch (l : Nat)
  /-- `WRITE s, m`. -/
  | write (s m : Nat)
  /-- `RENDER v` and `RENDER v, i`. -/
  | render (v : Nat) (i : Option Nat)
  /-- `LATCHLO`, which is `LATCH 0`. -/
  | latchLo
  /-- `LATCHHI`, which is `LATCH 1`. -/
  | latchHi
  /-- `ENCDP d`, which is `ENC d, 1`. -/
  | encDp (d : Nat)
  /-- `BLANK`, which is `WRITE 0xFF, 0x00`. -/
  | blank
  /-- `.word w`, the raw word. -/
  | word (w : Nat)
deriving DecidableEq, Repr

/-- The assembler's check (R86): an operand that does not fit its field is refused. A digit from 10 to 15 fits. -/
def AsmCmd.wellFormed : AsmCmd → Bool
  | .enc d dp   => decide (d ≤ 15) && dp.all (fun x => decide (x ≤ 1))
  | .send b     => decide (b ≤ 255)
  | .latch l    => decide (l ≤ 1)
  | .write s m  => decide (s ≤ 255) && decide (m ≤ 255)
  | .render v i => decide (v ≤ 65535) && i.all (fun x => decide (x ≤ 3))
  | .latchLo    => true
  | .latchHi    => true
  | .encDp d    => decide (d ≤ 15)
  | .blank      => true
  | .word w     => decide (w < 2 ^ 24)

end Sys2Proof
end

