-- ==== Sys2Proof/Decode.lean ====
section
/-!
DEFINITION. From a command word to an operation and back, from the layouts of spec/30_encoding.md R76 to R84; the five
rows of spec/opcode_table.json; and the assembler of R86. Decoding is total: every word is one of the five operations
or is rejected by the name of what is wrong with it (R84, R85).
-/
namespace Sys2Proof

/-- Why a word is no operation (spec/30_encoding.md R84). Each of the three is ILLEGAL_CMD to the host (R192). -/
inductive IllegalWord where
  /-- `OP` is 5, 6 or 7. -/
  | reservedOp
  /-- one of the two `RSV` bits is 1. -/
  | reservedBit
  /-- an operand bit that the format says must be 0 is 1. -/
  | mustBeZero
deriving DecidableEq, Repr

/-! ### The fields of a word (R76, R78 to R83) -/

/-- `OP = cmd[23:21]` (R76). -/
def opField (w : CmdWord) : BitVec 3 := w.extractLsb' 21 3

/-- `RSV = cmd[20:19]` (R76), which must be 0 in every format, RENDER included (R82; log 12). -/
def rsvField (w : CmdWord) : BitVec 2 := w.extractLsb' 19 2

/-- Format E (R78). -/
def decodeE (w : CmdWord) : Except IllegalWord Instr :=
  if w.extractLsb' 5 14 = 0 then .ok (.enc (w.extractLsb' 0 4) (w.getLsbD 4)) else .error .mustBeZero

/-- Format S (R79). -/
def decodeS (w : CmdWord) : Except IllegalWord Instr :=
  if w.extractLsb' 8 11 = 0 then .ok (.send (w.extractLsb' 0 8)) else .error .mustBeZero

/-- Format L (R80). -/
def decodeL (w : CmdWord) : Except IllegalWord Instr :=
  if w.extractLsb' 1 18 = 0 then .ok (.latch (w.getLsbD 0)) else .error .mustBeZero

/-- Format W (R81). -/
def decodeW (w : CmdWord) : Except IllegalWord Instr :=
  if w.extractLsb' 16 3 = 0 then .ok (.write (w.extractLsb' 8 8) (w.extractLsb' 0 8)) else .error .mustBeZero

/-- Format R (R82). No operand bit is unused. -/
def decodeR (w : CmdWord) : Except IllegalWord Instr :=
  .ok (.render (w.extractLsb' 0 16) (w.getLsbD 18) (w.extractLsb' 16 2))

/-- The decoder (R84, R85). -/
def decode (w : CmdWord) : Except IllegalWord Instr :=
  if 5 ≤ (opField w).toNat then .error .reservedOp
  else if rsvField w ≠ 0 then .error .reservedBit
  else
    match (opField w).toNat with
    | 0 => decodeE w
    | 1 => decodeS w
    | 2 => decodeL w
    | 3 => decodeW w
    | _ => decodeR w

/-! ### The encoder -/

/-- `OP`, the two `RSV` bits at 0, and the 19 operand bits (R76). -/
def packWord (op : BitVec 3) (operands : BitVec 19) : CmdWord := op ++ 0#2 ++ operands

/-- The operation code of an operation (R77). -/
def opCode : Instr → BitVec 3
  | .enc _ _      => 0
  | .send _       => 1
  | .latch _      => 2
  | .write _ _    => 3
  | .render _ _ _ => 4

/-- The operand bits of an operation, from bit 18 down to bit 0 (R78 to R82). -/
def operandBits : Instr → BitVec 19
  | .enc digit dp            => 0#14 ++ BitVec.ofBool dp ++ digit
  | .send byte               => 0#11 ++ byte
  | .latch level             => 0#18 ++ BitVec.ofBool level
  | .write seg dsel          => 0#3 ++ seg ++ dsel
  | .render value dpen dpidx => BitVec.ofBool dpen ++ dpidx ++ value

/-- The word of an operation (R76 to R82). -/
def encode (i : Instr) : CmdWord := packWord (opCode i) (operandBits i)

/-! ### The opcode table -/

/-- A row of spec/opcode_table.json: a word belongs to the row when `word &&& mask = pattern` (R84). -/
structure OpcodeRow where
  mask    : CmdWord
  pattern : CmdWord
deriving DecidableEq, Repr

/-- The row of an operation, as spec/opcode_table.json prints it. -/
def rowOf : Instr → OpcodeRow
  | .enc _ _      => ⟨0xFFFFE0, 0x000000⟩
  | .send _       => ⟨0xFFFF00, 0x200000⟩
  | .latch _      => ⟨0xFFFFFE, 0x400000⟩
  | .write _ _    => ⟨0xFF0000, 0x600000⟩
  | .render _ _ _ => ⟨0xF80000, 0x800000⟩

/-- The five rows, in the table's order. -/
def opcodeTable : List OpcodeRow :=
  [⟨0xFFFFE0, 0x000000⟩, ⟨0xFFFF00, 0x200000⟩, ⟨0xFFFFFE, 0x400000⟩, ⟨0xFF0000, 0x600000⟩, ⟨0xF80000, 0x800000⟩]

/-- A word belongs to a row. -/
def OpcodeRow.holds (r : OpcodeRow) (w : CmdWord) : Bool := w &&& r.mask == r.pattern

/-! ### Words as the host numbers them -/

/-- The word whose bits are the low `nbits` bits of `w`, every higher bit 0. A command is one 24-bit word and is stored
nowhere, so it has no byte order (R75). -/
def tableWord (nbits w : Nat) : CmdWord := BitVec.ofNat 24 (w % 2 ^ nbits)

/-- What the decoder reads from a word of the opcode table. -/
def decodeTableWord (nbits w : Nat) : Option Instr :=
  match decode (tableWord nbits w) with
  | .ok i    => some i
  | .error _ => none

/-! ### The assembler (R86) -/

/-- The word a well-formed command stands for (R86). -/
def AsmCmd.toWord : AsmCmd → CmdWord
  | .enc d dp          => encode (.enc (BitVec.ofNat 4 d) (dp == some 1))
  | .send b            => encode (.send (BitVec.ofNat 8 b))
  | .latch l           => encode (.latch (l == 1))
  | .write s m         => encode (.write (BitVec.ofNat 8 s) (BitVec.ofNat 8 m))
  | .render v none     => encode (.render (BitVec.ofNat 16 v) false 0)
  | .render v (some i) => encode (.render (BitVec.ofNat 16 v) true (BitVec.ofNat 2 i))
  | .latchLo           => encode (.latch false)
  | .latchHi           => encode (.latch true)
  | .encDp d           => encode (.enc (BitVec.ofNat 4 d) true)
  | .blank             => encode (.write 0xFF 0x00)
  | .word w            => BitVec.ofNat 24 w

/-- Assemble a command: refused when an operand does not fit (R86). -/
def assemble (c : AsmCmd) : Option CmdWord := if c.wellFormed then some c.toWord else none

/-- A blank between the parts of a line (log 16). -/
def isBlank (c : Char) : Bool := c == ' ' || c == '\t'

/-- A line without blanks at either end. -/
def trimBlanks (cs : List Char) : List Char :=
  ((cs.dropWhile isBlank).reverse.dropWhile isBlank).reverse

/-- The value of one digit in a base, decimal digits and the letters a to f of either case. -/
def charDigit (base : Nat) (c : Char) : Option Nat :=
  let n := c.toNat
  let v := if 48 ≤ n ∧ n ≤ 57 then n - 48
           else if 97 ≤ n ∧ n ≤ 102 then n - 87
           else if 65 ≤ n ∧ n ≤ 70 then n - 55
           else base
  if v < base then some v else none

/-- The number that a list of digits spells, continued from `acc`. -/
def digitsFrom (base : Nat) : Nat → List Char → Option Nat
  | acc, []      => some acc
  | acc, c :: cs =>
    match charDigit base c with
    | some v => digitsFrom base (acc * base + v) cs
    | none   => none

/-- A number in decimal or, after `0x`, in hexadecimal (R86). -/
def parseNumber : List Char → Option Nat
  | []                   => none
  | '0' :: 'x' :: c :: r => digitsFrom 16 0 (c :: r)
  | cs                   => digitsFrom 10 0 cs

/-- The parts of a line between commas. -/
def splitCommas : List Char → List (List Char)
  | []      => [[]]
  | c :: cs =>
    if c == ',' then [] :: splitCommas cs
    else
      match splitCommas cs with
      | []      => [[c]]
      | f :: fs => (c :: f) :: fs

/-- The operands of a command, separated by commas (R86). -/
def parseOperands (cs : List Char) : Option (List Nat) :=
  if trimBlanks cs = [] then some [] else (splitCommas cs).mapM (fun f => parseNumber (trimBlanks f))

/-- The command that a mnemonic and its operands name (R86). -/
def commandOf (name : List Char) (ops : List Nat) : Option AsmCmd :=
  match ops with
  | []     =>
    if name = ['L', 'A', 'T', 'C', 'H', 'L', 'O'] then some .latchLo
    else if name = ['L', 'A', 'T', 'C', 'H', 'H', 'I'] then some .latchHi
    else if name = ['B', 'L', 'A', 'N', 'K'] then some .blank
    else none
  | [a]    =>
    if name = ['E', 'N', 'C'] then some (.enc a none)
    else if name = ['S', 'E', 'N', 'D'] then some (.send a)
    else if name = ['L', 'A', 'T', 'C', 'H'] then some (.latch a)
    else if name = ['R', 'E', 'N', 'D', 'E', 'R'] then some (.render a none)
    else if name = ['E', 'N', 'C', 'D', 'P'] then some (.encDp a)
    else if name = ['.', 'w', 'o', 'r', 'd'] then some (.word a)
    else none
  | [a, b] =>
    if name = ['E', 'N', 'C'] then some (.enc a (some b))
    else if name = ['W', 'R', 'I', 'T', 'E'] then some (.write a b)
    else if name = ['R', 'E', 'N', 'D', 'E', 'R'] then some (.render a (some b))
    else none
  | _      => none

/-- What a line of a program is. -/
inductive AsmLine where
  /-- a blank line or a comment. -/
  | empty
  /-- a command, whose operands may still not fit. -/
  | command (c : AsmCmd)
  /-- neither. -/
  | malformed
deriving DecidableEq, Repr

/-- Read one line: what follows `;` is a comment (R86). -/
def parseLine (cs : List Char) : AsmLine :=
  let body := trimBlanks (cs.takeWhile (fun c => c != ';'))
  if body = [] then .empty
  else
    let name := body.takeWhile (fun c => !isBlank c)
    match parseOperands (body.dropWhile (fun c => !isBlank c)) with
    | none     => .malformed
    | some ops =>
      match commandOf name ops with
      | none   => .malformed
      | some c => .command c

/-- Assemble a program, one command a line (R86): none when a line is malformed or an operand does not fit. -/
def assembleLines : List (List Char) → Option (List CmdWord)
  | []      => some []
  | l :: ls =>
    match parseLine l, assembleLines ls with
    | .empty, some ws     => some ws
    | .command c, some ws => (assemble c).map (fun w => w :: ws)
    | _, _                => none

end Sys2Proof
end

