-- ==== Sys2Proof/Config.lean ====
section
/-!
DEFINITION. What is fixed for one machine and never written by a step (spec/10_state.md R37): the constants of
spec/00_scope.md R8, the parameters that R9 leaves open, and the free values.
-/
namespace Sys2Proof

/-- The parameters of the block that the spec leaves open (spec/00_scope.md R9). A state carries its parameters, and
no step writes them, so that a statement about every state holds for every value of them (log 3). -/
structure Config where
  /-- `SEGTAB`, the ten segment patterns (spec/20_memory.md R50). -/
  segTab     : Vector Byte 10
  /-- `DWELL_TICKS`, the number of steps of one dwell (R9, spec/43_display_multiplexer.md R165). -/
  dwellTicks : Nat
  /-- `F_CLK`, the frequency of `clk` in hertz (R9). No rule of the step reads it. -/
  fClk       : Nat
deriving DecidableEq, Repr

namespace Config

/-- `T_DWELL` in milliseconds (R8). -/
def tDwellMs : Nat := 2

/-- The parameters' reference values. `SEGTAB` is the default of spec/20_memory.md R50, whose digit shapes are general
knowledge (G1): PRESUMED, unsafe for a claim that names a concrete pattern (log 4). `DWELL_TICKS` and `F_CLK` are the
reference values of R9. -/
def reference : Config where
  segTab     := #v[0xC0, 0xF9, 0xA4, 0xB0, 0x99, 0x92, 0x82, 0xF8, 0x80, 0x90]
  dwellTicks := 2000
  fClk       := 1000000

/-- A configuration that the model runs: `DWELL_TICKS ≥ 1` (spec/93_implementation_defined.md U5, which says to refuse
the value 0) and bit 7 of every entry of `SEGTAB` is 1 (U3, spec/20_memory.md R50). DESIGN CHOICE, safe: a configuration
without `DWELL_TICKS = T_DWELL × F_CLK` (`dwellMatchesClock`) runs too; R9 states the equality, and whether a
configuration that breaks it is refused is left open (log 19). -/
abbrev wf (c : Config) : Prop :=
  1 ≤ c.dwellTicks ∧ ∀ d : Fin 10, c.segTab[d].getLsbD 7 = true

/-- `DWELL_TICKS = T_DWELL × F_CLK` (R9). A relation that a configuration should meet; it is no part of `wf` (log 19). -/
abbrev dwellMatchesClock (c : Config) : Prop := c.dwellTicks * 1000 = tDwellMs * c.fClk

/-- `W_DWELL`, the least `n` with `2 ^ n > DWELL_TICKS` (R9). -/
def wDwell (c : Config) : Nat := if c.dwellTicks = 0 then 0 else Nat.log2 c.dwellTicks + 1

/-- The flicker condition of spec/00_scope.md R10, `4 × (50 + DWELL_TICKS) / F_CLK + T_GAP_MAX + 1 / F_CLK < 16 ms`,
multiplied by `F_CLK`, with the parameter `T_GAP_MAX` in microseconds (log 17). No rule of the step depends on it. -/
abbrev noFlicker (c : Config) (tGapMaxUs : Nat) : Prop :=
  (4 * (50 + c.dwellTicks) + 1) * 1000000 + tGapMaxUs * c.fClk < 16000 * c.fClk

/-- What the stages of the external register hold at power-up: 0 for `ENV.SR`, 1 for `ENV.OUT`. FREE VALUE: the spec
leaves both unspecified, "a free draw, never zero" (spec/10_state.md R36, U6), so nothing can be proved of them (log 5). -/
opaque powerUpWord : Nat → Word

end Config

/-- `DIGITPOS`, the four digit-select masks, leftmost digit first (spec/20_memory.md R51; fixed by R8). -/
def DIGITPOS : Vector Byte 4 := #v[0x01, 0x02, 0x04, 0x08]

/-- `DISPLAY_RANGE`: the largest value of four decimal digits (R8, spec/30_encoding.md R73). -/
def maxDisplayValue : Nat := 9999

end Sys2Proof
end

