-- ==== Sys2Proof/Machine/State.lean ====
section
/-!
DEFINITION. All the state the spec gives the machine (spec/10_state.md R20 to R36), the two histories and the violation
mark that it asks a model to record (R37, spec/70_reset_and_hazards.md R226), the input ports, and the state after reset.
-/
namespace Sys2Proof.Machine

/-- One of the three output lines (spec/10_state.md R30). -/
inductive Pin where
  | data | clk | latch
deriving DecidableEq, Repr

/-- `ST` (R25). The value 3 is never written and is left out of the type, as R25 allows. -/
inductive St where
  /-- 0: no operation in progress. -/
  | idle
  /-- 1: inside a frame or a byte, one pin assignment per step. -/
  | shift
  /-- 2: holding a digit. -/
  | dwell
deriving DecidableEq, Repr

/-- `OPR` (R26): the values that a rule writes. The codes 2, 5, 6 and 7 are never written and are left out of the type
(spec/93_implementation_defined.md U9). -/
inductive Opr where
  /-- 0: no long operation since reset. -/
  | none
  /-- 1: `SEND`. -/
  | send
  /-- 3: `WRITE`. -/
  | write
  /-- 4: `RENDER`. -/
  | render
deriving DecidableEq, Repr

/-- The status codes (spec/60_exceptions.md R190), which are all four values of the 2-bit `STATUS` (R31). -/
inductive Status where
  /-- 0: the operation was carried out. -/
  | ok
  /-- 1: `RENDER` was carried out with a value above 9999. -/
  | ovf
  /-- 2: `ENC` with a digit above 9, rejected. -/
  | invalidDigit
  /-- 3: no operation, rejected. -/
  | illegalCmd
deriving DecidableEq, Repr

/-- Why a command is rejected, with what the pseudocode hands to `raise` (spec/00_scope.md R12). Neither the digit nor
the word is saved anywhere (spec/60_exceptions.md R190, R193). -/
inductive Rejection where
  /-- `InvalidDigit(DIGIT)` (spec/40_segment_encoder.md R104). -/
  | invalidDigit (digit : BitVec 4)
  /-- an illegal word (spec/60_exceptions.md R192). -/
  | illegalCmd (word : CmdWord)
deriving DecidableEq, Repr

/-- A pin assignment, as `TRACE` records it (spec/00_scope.md R12, spec/20_memory.md R58). -/
structure PinEvent where
  pin   : Pin
  level : Bool
deriving DecidableEq, Repr

/-- What the response port carries in a step with `rsp_valid = 1` (spec/10_state.md R35). -/
structure Response where
  status  : Status
  pattern : Byte
deriving DecidableEq, Repr

/-- An entry of `RSPLOG`: a response and the number of its step since reset (spec/92_eei_decisions.md D26). -/
structure LogEntry where
  step : Nat
  rsp  : Response
deriving DecidableEq, Repr

/-- The levels of the input ports in one step (spec/10_state.md R33). -/
structure PortSample where
  rst      : Bool
  cmdValid : Bool
  cmd      : CmdWord
deriving DecidableEq, Repr

/-- A step in which the host neither resets the block nor presents a command. -/
def PortSample.quiet : PortSample := ⟨false, false, 0⟩

/-- A step in which the host presents a command word. -/
def PortSample.offer (w : CmdWord) : PortSample := ⟨false, true, w⟩

/-- A step in which the host holds `rst` at 1. -/
def PortSample.reset : PortSample := ⟨true, false, 0⟩

/-- The unreachable sequencer states that the types do not rule out and that no row of the step function is meant for
(spec/43_display_multiplexer.md R172, spec/93_implementation_defined.md U9). A step from one is a fault. Safe: the
hardware never reaches them (spec/10_state.md R39). -/
inductive Fault where
  /-- raised by the SHIFT step: `ST = SHIFT` with `OPR` not 1, 3 or 4. Safe. -/
  | shiftWithoutOperation
  /-- raised by the SHIFT step: `ST = SHIFT`, `OPR = 1` and `UPC` is 0 or above 24. Safe. -/
  | sendOutsideByte
  /-- raised by the DWELL step: `ST = DWELL` with `DWELLCNT = 0`. Safe. -/
  | dwellCountZero
deriving DecidableEq, Repr

/-- What the model does not accept. -/
inductive Refusal where
  /-- raised by `exec` for an instruction that has no meaning yet. Safe. -/
  | notModelled (mnemonic : String)
  /-- raised by `step`: the configuration is one of those of spec/93_implementation_defined.md U5 and U3 (logs 6, 19).
  Safe. -/
  | badConfiguration
deriving DecidableEq, Repr

/-- The whole state (spec/10_state.md R20). -/
@[ext]
structure State where
  /-- `VAL`: the display value of the `RENDER` in progress (R21). -/
  val      : Word
  /-- `DPEN`: the decimal point is enabled (R22). -/
  dpen     : Bool
  /-- `DPIDX`: the digit that carries the decimal point (R22). -/
  dpidx    : BitVec 2
  /-- `FRAME`: the segment byte and the digit-select byte being sent (R23). -/
  frame    : Word
  /-- `PATTERN`: the result of the last successful `ENC` (R24). -/
  pattern  : Byte
  /-- `ST` (R25). -/
  st       : St
  /-- `OPR`: the operation in progress (R26). -/
  opr      : Opr
  /-- `DIDX`: the current digit index (R27). -/
  didx     : BitVec 2
  /-- `UPC`: the micro-step of a frame, 0 to 49 (R28; 50 to 63 are left out of the type, U9). -/
  upc      : Fin 50
  /-- `DWELLCNT`: the DWELL steps still to come (R29; log 9 on its width). -/
  dwellcnt : Nat
  /-- `DATA`, a pin register (R30). -/
  data     : Bool
  /-- `CLK`, a pin register (R30). -/
  clk      : Bool
  /-- `LATCH`, a pin register (R30). -/
  latch    : Bool
  /-- `STATUS`: the code of the last completed command (R31). -/
  status   : Status
  /-- `ENV.SR`: the shift stage of the external register (R36). -/
  envSr    : Word
  /-- `ENV.OUT`: its output stage (R36). -/
  envOut   : Word
  /-- `HAZ1`: some `SEND` was accepted with `LATCH = 1` (spec/70_reset_and_hazards.md R226; log 7). -/
  haz1     : Bool
  /-- `TRACE`: the pin events since reset, oldest first (R37). -/
  trace    : List PinEvent
  /-- `RSPLOG`: the responses since reset, oldest first (R37). -/
  rspLog   : List LogEntry
  /-- the response port in the step just taken: `rsp_valid` is 1 when there is one (R33, R35; log 11). -/
  rsp      : Option Response
  /-- the model's own: the number of steps since reset (log 10). -/
  stepNo   : Nat
  /-- the model's own: the input ports in the steps to come; quiet beyond the list (log 1). -/
  inputs   : List PortSample
  /-- the model's own: the parameters, which no step writes (log 3). -/
  cfg      : Config
deriving DecidableEq, Repr

/-- The state right after the reset that follows power-up, for given parameters, contents of the external register and
port levels to come: every element of the block at the reset value of R20. -/
def State.powerUp (c : Config) (sr out : Word) (inputs : List PortSample) : State where
  val      := 0x0000
  dpen     := false
  dpidx    := 0
  frame    := 0x0000
  pattern  := 0xFF
  st       := .idle
  opr      := .none
  didx     := 0
  upc      := 0
  dwellcnt := 0
  data     := false
  clk      := false
  latch    := false
  status   := .ok
  envSr    := sr
  envOut   := out
  haz1     := false
  trace    := []
  rspLog   := []
  rsp      := none
  stepNo   := 0
  inputs   := inputs
  cfg      := c

/-- The machine right after reset (spec/10_state.md R20, spec/70_reset_and_hazards.md R220), with the reference
parameters, the external register as power-up left it (a free draw, log 5) and nothing on the input ports (logs 1, 2). -/
def State.reset : State :=
  State.powerUp Config.reference (Config.powerUpWord 0) (Config.powerUpWord 1) []

end Sys2Proof.Machine
end

