-- ==== Sys2Proof/Machine/Flags.lean ====
section
/-!
DEFINITION. The conditions the block computes: its status codes and the port `cmd_ready`. It has no arithmetic flags
(spec/10_state.md R32).
-/
namespace Sys2Proof.Machine

/-- The 2-bit code of a status (spec/60_exceptions.md R190), which the port `status` carries (spec/10_state.md R31). -/
def Status.code : Status → BitVec 2
  | .ok           => 0
  | .ovf          => 1
  | .invalidDigit => 2
  | .illegalCmd   => 3

/-- The 2-bit code of `ST` (spec/10_state.md R25). -/
def St.code : St → BitVec 2
  | .idle  => 0
  | .shift => 1
  | .dwell => 2

/-- The 3-bit code of `OPR`, which is the `OP` field of the command (spec/10_state.md R26, spec/30_encoding.md R77). -/
def Opr.code : Opr → BitVec 3
  | .none   => 0
  | .send   => 1
  | .write  => 3
  | .render => 4

/-- The status code of a rejection (spec/60_exceptions.md R190). -/
def Rejection.status : Rejection → Status
  | .invalidDigit _ => .invalidDigit
  | .illegalCmd _   => .illegalCmd

/-- The status code with which a sweep of `v` ends: OVF above 9999 (spec/43_display_multiplexer.md R167). -/
def renderStatus (v : Word) : Status := if maxDisplayValue < v.toNat then .ovf else .ok

/-- `BUSY`: `ST ≠ IDLE` (spec/10_state.md R32). -/
def State.busy (s : State) : Bool := s.st != .idle

/-- The port `cmd_ready` (spec/10_state.md R32, R33). -/
def State.cmdReady (s : State) : Bool := !s.busy

/-- The port `rsp_valid` in the step just taken (spec/10_state.md R33, R35). -/
def State.rspValid (s : State) : Bool := s.rsp.isSome

end Sys2Proof.Machine
end

