-- ==== Sys2Proof/Machine/Operands.lean ====
section
/-!
DEFINITION. What the operations read: the two tables, the digits of a value, the decimal point. An index out of range
cannot be formed (spec/20_memory.md R53): the types of the arguments say so.
-/
namespace Sys2Proof.Machine

/-- `SEGTAB[d]` (spec/20_memory.md R50, R54). -/
def segTabRead (c : Config) (d : Fin 10) : Byte := c.segTab[d]

/-- `DIGITPOS[i]` (spec/20_memory.md R51, R54). -/
def digitPosRead (i : BitVec 2) : Byte := DIGITPOS[i.toFin]

/-- `encode(d, dp)`, the segment encoder (spec/40_segment_encoder.md R100). -/
def encodeDigit (c : Config) (d : Fin 10) (dp : Bool) : Byte :=
  if dp then segTabRead c d &&& 0x7F else segTabRead c d

/-- The power of ten that digit index `i` stands for, leftmost digit first (spec/43_display_multiplexer.md R160). -/
def digitWeight (i : BitVec 2) : Nat :=
  match i.toNat with
  | 0 => 1000
  | 1 => 100
  | 2 => 10
  | _ => 1

/-- `digit(v, i)` (spec/43_display_multiplexer.md R160): a remainder modulo 10, so always a digit (R161). -/
def digitOf (v : Word) (i : BitVec 2) : Fin 10 :=
  ⟨(v.toNat / digitWeight i) % 10, Nat.mod_lt _ (by decide)⟩

/-- `dpon(i)` (spec/43_display_multiplexer.md R162). -/
def dpOn (en : Bool) (ix i : BitVec 2) : Bool := en && ix == i

/-- `frame_for(v, en, ix, i)` (spec/43_display_multiplexer.md R163). -/
def frameFor (c : Config) (v : Word) (en : Bool) (ix i : BitVec 2) : Word :=
  encodeDigit c (digitOf v i) (dpOn en ix i) ++ digitPosRead i

/-- The bit that shift micro-step `u` is about: `k = (u − 1) / 3`, counted in sending order
(spec/41_serial_out.md R121). -/
def shiftBit (u : Nat) : Nat := (u - 1) / 3

/-- The phase of shift micro-step `u`: `ph = (u − 1) % 3` (spec/41_serial_out.md R121). -/
def shiftPhase (u : Nat) : Nat := (u - 1) % 3

end Sys2Proof.Machine
end

