-- ==== Sys2Proof/Machine/Ops.lean ====
section
/-!
DEFINITION. The operations that the meanings share: driving the lines, with the reaction of the external register;
responding; rejecting a command; resetting the block; the bookkeeping at the start of a step.
-/
namespace Sys2Proof.Machine

/-- The outcome of a step of this machine. -/
abbrev Result := Host.Outcome State Fault Refusal

/-! ### The lines and the external register -/

/-- The shift stage after one shift: `{ENV.SR[14:0], DATA}` (spec/20_memory.md R59). -/
def shiftIn (sr : Word) (d : Bool) : Word := sr.extractLsb' 0 15 ++ BitVec.ofBool d

/-- Set the levels of the three lines. The external register reacts to what changes: a rising edge of `CLK` shifts
`DATA` into `ENV.SR` (spec/20_memory.md R59), a rising edge of `LATCH` copies `ENV.SR` to `ENV.OUT` (R60). Nothing else
changes it, and no step makes both edges (R61). -/
def driveLines (d c l : Bool) (s : State) : State :=
  { s with
    data   := d
    clk    := c
    latch  := l
    envSr  := if !s.clk && c then shiftIn s.envSr d else s.envSr
    envOut := if !s.latch && l then s.envSr else s.envOut }

/-- `PIN <- b` (spec/00_scope.md R12): set one line and append the event to `TRACE`, even when the level does not
change (spec/20_memory.md R58). -/
def assignPin (p : Pin) (b : Bool) (s : State) : State :=
  let t := match p with
    | .data  => driveLines b s.clk s.latch s
    | .clk   => driveLines s.data b s.latch s
    | .latch => driveLines s.data s.clk b s
  { t with trace := s.trace ++ [⟨p, b⟩] }

/-! ### Responses and rejections -/

/-- `respond(status, pattern)` (spec/00_scope.md R12): drive the response port for this step and write `STATUS`. The
response is entered in `RSPLOG` with the number of the step (spec/10_state.md R37). -/
def respond (c : Status) (p : Byte) (s : State) : State :=
  { s with
    status := c
    rsp    := some ⟨c, p⟩
    rspLog := s.rspLog ++ [⟨s.stepNo, ⟨c, p⟩⟩] }

/-- `done(c)`: `respond(c, PATTERN)` and `ST <- IDLE` (spec/43_display_multiplexer.md R172). -/
def done (c : Status) (s : State) : State := { respond c s.pattern s with st := .idle }

/-- `raise`, the block's trap entry: the command is rejected with the code of its cause, the old `PATTERN` on the
response port, and no other effect (spec/00_scope.md R12, spec/60_exceptions.md R193). Nothing is saved and there is no
handler, so there is no operation that returns from a rejection (R196). -/
def raise (r : Rejection) (s : State) : State := done r.status s

/-! ### Reset and the start of a step -/

/-- A step with `rst = 1`: every element of the block takes its reset value (spec/70_reset_and_hazards.md R220). The
three lines go to 0, the external register sees that like any other change of them (R222, R223), and the histories
start again. -/
def resetBlock (s : State) : State :=
  { driveLines false false false s with
    val      := 0x0000
    dpen     := false
    dpidx    := 0
    frame    := 0x0000
    pattern  := 0xFF
    st       := .idle
    opr      := .none
    didx     := 0
    upc      := 0
    dwellcnt := 0
    status   := .ok
    trace    := []
    rspLog   := []
    rsp      := none
    stepNo   := 0 }

/-- The levels of the input ports in the coming step: the head of the list, quiet when the list is empty (log 1). -/
def State.portNow (s : State) : PortSample := s.inputs.headD PortSample.quiet

/-- The start of a step: the port sample is taken, the step is counted, and no response is on the port yet
(spec/10_state.md R35: in every other step `rsp_valid = 0`). -/
def beginStep (s : State) : State :=
  { s with inputs := s.inputs.tail, rsp := none, stepNo := s.stepNo + 1 }

end Sys2Proof.Machine
end

