-- ==== Sys2Proof/Machine/SerialOut.lean ====
section
/-!
DEFINITION. The serial bit-banger: `SEND` and the shift micro-step (spec/41_serial_out.md).
-/
namespace Sys2Proof.Machine

/-- `SEND b`, the accept step (spec/41_serial_out.md R120): no pin assignment. The violation mark `HAZ1` is recorded when
the latch line is high (spec/70_reset_and_hazards.md R226); the block does not test it (R124). -/
def execSend (byte : Byte) (s : State) : Result :=
  .next { s with
    frame := byte ++ 0#8
    opr   := .send
    upc   := 1
    st    := .shift
    haz1  := s.haz1 || s.latch }

/-- `shift_uop(u)` for `1 ≤ u ≤ 48` (spec/41_serial_out.md R121): set the data line, raise the clock line, or lower it. -/
def shiftUop (u : Nat) (s : State) : State :=
  match shiftPhase u with
  | 0 => assignPin .data (s.frame.getLsbD (15 - shiftBit u)) s
  | 1 => assignPin .clk true s
  | _ => assignPin .clk false s

/-- A SHIFT step of `SEND`, with `UPC` from 1 to 24 (spec/41_serial_out.md R120). -/
def sendMicroStep (s : State) : State :=
  let t := shiftUop s.upc.val s
  if s.upc = 24 then done .ok t else { t with upc := s.upc + 1 }

end Sys2Proof.Machine
end

