-- ==== Sys2Proof/Machine/ShiftRegisterFrame.lean ====
section
/-!
DEFINITION. The shift-register frame protocol: `LATCH`, `WRITE` and the frame micro-step
(spec/42_shift_register_frame.md).
-/
namespace Sys2Proof.Machine

/-- `LATCH l` (spec/42_shift_register_frame.md R141), all in the accept step. -/
def execLatch (level : Bool) (s : State) : Result :=
  .next (respond .ok s.pattern (assignPin .latch level s))

/-- `WRITE s, m`, the accept step (spec/42_shift_register_frame.md R142): no pin assignment and no check of the operands
(R145). -/
def execWrite (seg dsel : Byte) (s : State) : Result :=
  .next { s with
    frame := seg ++ dsel
    opr   := .write
    upc   := 0
    st    := .shift }

/-- `frame_uop(u)` for `0 ≤ u ≤ 49` (spec/42_shift_register_frame.md R146). -/
def frameUop (u : Nat) (s : State) : State :=
  if u = 0 then assignPin .latch false s
  else if u = 49 then assignPin .latch true s
  else shiftUop u s

/-- A SHIFT step of `WRITE` (spec/42_shift_register_frame.md R142). -/
def writeMicroStep (s : State) : State :=
  let t := frameUop s.upc.val s
  if s.upc = 49 then done .ok t else { t with upc := s.upc + 1 }

end Sys2Proof.Machine
end

