-- ==== Sys2Proof/Machine/DisplayMultiplexer.lean ====
section
/-!
DEFINITION. The display multiplexer: `RENDER` and the dwell (spec/43_display_multiplexer.md).
-/
namespace Sys2Proof.Machine

/-- `RENDER v` and `RENDER v, i`, the accept step (spec/43_display_multiplexer.md R164): no pin assignment. The frame of
digit 0 is formed from the command's fields. -/
def execRender (value : Word) (dpen : Bool) (dpidx : BitVec 2) (s : State) : Result :=
  .next { s with
    val   := value
    dpen  := dpen
    dpidx := dpidx
    didx  := 0
    frame := frameFor s.cfg value dpen dpidx 0
    opr   := .render
    upc   := 0
    st    := .shift }

/-- A SHIFT step of `RENDER` (spec/43_display_multiplexer.md R164): the step that raises the latch loads the dwell
timer. -/
def renderMicroStep (s : State) : State :=
  let t := frameUop s.upc.val s
  if s.upc = 49 then { t with dwellcnt := s.cfg.dwellTicks, st := .dwell } else { t with upc := s.upc + 1 }

/-- The end of a dwell (spec/43_display_multiplexer.md R165): the next digit's frame, or the response after digit 3. -/
def dwellEnd (s : State) : State :=
  if s.didx = 3 then done (renderStatus s.val) s
  else
    { s with
      didx  := s.didx + 1
      frame := frameFor s.cfg s.val s.dpen s.dpidx (s.didx + 1)
      upc   := 0
      st    := .shift }

/-- A DWELL step (spec/43_display_multiplexer.md R165), with `DWELLCNT` at least 1: no pin assignment. -/
def dwellTick (s : State) : State :=
  let t := { s with dwellcnt := s.dwellcnt - 1 }
  if s.dwellcnt = 1 then dwellEnd t else t

end Sys2Proof.Machine
end

