-- ==== Sys2Proof/Machine/SegmentEncoder.lean ====
section
/-!
DEFINITION. The segment encoder's operation, `ENC` (spec/40_segment_encoder.md).
-/
namespace Sys2Proof.Machine

/-- `ENC d, dp` (spec/40_segment_encoder.md R103), all in the accept step: the pattern of the digit goes to `PATTERN`
and to the response port. A digit from 10 to 15 is rejected and the table is not read (R104). -/
def execEnc (digit : BitVec 4) (dp : Bool) (s : State) : Result :=
  if h : digit.toNat < 10 then
    let p := encodeDigit s.cfg ⟨digit.toNat, h⟩ dp
    .next (respond .ok p { s with pattern := p })
  else .next (raise (.invalidDigit digit) s)

end Sys2Proof.Machine
end

