-- ==== Sys2Proof/Machine/Dispatch.lean ====
section
/-!
DEFINITION. From an accepted instruction to its meaning, one arm per constructor.
-/
namespace Sys2Proof.Machine

def exec (i : Instr) (s : State) : Host.Outcome State Fault Refusal :=
  match i with
  | .enc digit dp => Sys2Proof.Machine.execEnc digit dp s
  | .send byte => Sys2Proof.Machine.execSend byte s
  | .latch level => Sys2Proof.Machine.execLatch level s
  | .write seg dsel => Sys2Proof.Machine.execWrite seg dsel s
  | .render value dpen dpidx => Sys2Proof.Machine.execRender value dpen dpidx s

end Sys2Proof.Machine
end

