-- ==== Sys2Proof/Machine/Sequencer.lean ====
section
/-!
DEFINITION. The sequencer: which row of the step function applies (spec/43_display_multiplexer.md R172). The precondition
`ST = IDLE` of every accept is tested here, not in the meanings (log 14).
-/
namespace Sys2Proof.Machine

/-- Accept a command word (spec/10_state.md R34; R172 rows 3 to 9): an illegal word is rejected with ILLEGAL_CMD
(spec/60_exceptions.md R192), and its legality is tested before anything else (R195). -/
def accept (w : CmdWord) (s : State) : Result :=
  match decode w with
  | .ok i    => exec i s
  | .error _ => .next (raise (.illegalCmd w) s)

/-- A step with `ST = SHIFT` (R172 rows 10 to 14). -/
def shiftStep (s : State) : Result :=
  match s.opr with
  | .none   => .fault .shiftWithoutOperation
  | .send   =>
    if 1 ≤ s.upc.val ∧ s.upc.val ≤ 24 then .next (sendMicroStep s) else .fault .sendOutsideByte
  | .write  => .next (writeMicroStep s)
  | .render => .next (renderMicroStep s)

/-- A step with `ST = DWELL` (R172 rows 15 to 17). -/
def dwellStep (s : State) : Result :=
  if s.dwellcnt = 0 then .fault .dwellCountZero else .next (dwellTick s)

/-- One rising edge of `clk` with the input ports at given levels (R172, rows tried from top to bottom). -/
def clockEdge (p : PortSample) (s : State) : Result :=
  if p.rst then .next (resetBlock s)
  else
    match s.st with
    | .idle  => if p.cmdValid then accept p.cmd s else .next s
    | .shift => shiftStep s
    | .dwell => dwellStep s

/-- One step: a configuration that is not `Config.wf` is refused (spec/93_implementation_defined.md U5, U3; logs 6,
19). -/
def stepOnce (s : State) : Result :=
  if s.cfg.wf then clockEdge s.portNow (beginStep s) else .refused .badConfiguration

/-- The state with a command on the input ports of the very next step, and the sequencer ready to take it. -/
def offerNext (w : CmdWord) (s : State) : State :=
  { s with inputs := PortSample.offer w :: s.inputs, st := .idle }

end Sys2Proof.Machine
end

