-- ==== Sys2Proof/Machine/Step.lean ====
section
/-!
DEFINITION. The step of the machine, and how a command is placed where the next step takes it.
-/
namespace Sys2Proof.Machine

/-- One step of the machine: one rising edge of `clk` (spec/00_scope.md R13, spec/43_display_multiplexer.md R172). -/
def step (s : State) : Host.Outcome State Fault Refusal := stepOnce s

/-- `s` with the command word, numbered as the opcode table numbers it, on the port `cmd` of the next step, `cmd_valid`
at 1, `rst` at 0 and `ST` at IDLE, so that the next step accepts it (spec/10_state.md R34; log 2). -/
def State.withFetchWord (s : State) (nbits w : Nat) : State := offerNext (tableWord nbits w) s

end Sys2Proof.Machine
end

