-- ==== Sys2Proof/Machine/Display.lean ====
section
/-!
DEFINITION. What the display shows: an observation of `ENV.OUT` (spec/20_memory.md R63). Bits 7 to 4 of `ENV.OUT` drive
nothing.
-/
namespace Sys2Proof.Machine

/-- The digit-select mask that drives the display. -/
def State.shownMask (s : State) : Byte := s.envOut.extractLsb' 0 8

/-- The segment pattern that drives the display. -/
def State.shownPattern (s : State) : Byte := s.envOut.extractLsb' 8 8

/-- Digit position `i`, 0 leftmost, is enabled (spec/20_memory.md R63). -/
def State.digitEnabled (s : State) (i : Fin 4) : Bool := s.envOut.getLsbD i.val

/-- Segment `k` (0 for A to 6 for G, 7 for the decimal point) of digit position `i` is lit (spec/20_memory.md R63). -/
def State.segmentLit (s : State) (k : Fin 8) (i : Fin 4) : Bool :=
  s.envOut.getLsbD i.val && !s.envOut.getLsbD (8 + k.val)

end Sys2Proof.Machine
end

