-- ==== Sys2Proof/Machine/Timing.lean ====
section
/-!
DEFINITION. How many steps an operation takes and what a host that drives the block command by command presents
(spec/70_reset_and_hazards.md R234). The step function does not read any of it.
-/
namespace Sys2Proof.Machine

/-- The steps of one digit of a sweep: one frame and one dwell (R234). -/
def digitSteps (c : Config) : Nat := 50 + c.dwellTicks

/-- The steps from accept to response, both included (R234). -/
def instrSteps (c : Config) : Instr → Nat
  | .enc _ _      => 1
  | .latch _      => 1
  | .send _       => 25
  | .write _ _    => 51
  | .render _ _ _ => 1 + 4 * digitSteps c

/-- The same for any word: a rejected word takes one step (R234). -/
def wordSteps (c : Config) (w : CmdWord) : Nat :=
  match decode w with
  | .ok i    => instrSteps c i
  | .error _ => 1

/-- The status code with which an instruction completes (spec/60_exceptions.md R190). -/
def instrStatus : Instr → Status
  | .enc digit _  => if digit.toNat < 10 then .ok else .invalidDigit
  | .render v _ _ => renderStatus v
  | .send _       => .ok
  | .latch _      => .ok
  | .write _ _    => .ok

/-- The same for any word (spec/60_exceptions.md R190, R195). -/
def wordStatus (w : CmdWord) : Status :=
  match decode w with
  | .ok i    => instrStatus i
  | .error _ => .illegalCmd

/-- The port levels of a host that presents a word in one step and is then quiet until the command has completed. -/
def commandPorts (c : Config) (w : CmdWord) : List PortSample :=
  PortSample.offer w :: List.replicate (wordSteps c w - 1) PortSample.quiet

/-- The same for a list of words, with no idle step between the commands. -/
def programPorts (c : Config) (ws : List CmdWord) : List PortSample := ws.flatMap (commandPorts c)

/-- The steps that a list of words takes with no idle step between the commands. -/
def programSteps (c : Config) (ws : List CmdWord) : Nat := (ws.map (wordSteps c)).sum

end Sys2Proof.Machine
end

