-- ==== Sys2Proof/Safety.lean ====
section
/-!
DEFINITION. What claims are stated in: runs of several steps, the invariants of the state, the events of a frame, the
violation mark `HAZ1`, and hosts that issue only some commands.
-/
namespace Sys2Proof.Machine

/-! ### Runs -/

/-- `k` steps, stopping at the first fault or refusal. -/
def run : Nat → State → Result
  | 0, s     => .next s
  | k + 1, s =>
    match step s with
    | .next t    => run k t
    | .fault r   => .fault r
    | .refused r => .refused r

/-- The state that an outcome gives, if any. -/
def next? : Result → Option State
  | .next t    => some t
  | .fault _   => none
  | .refused _ => none

/-- `rst` is 0 in each of the next `k` steps. What the other two input ports carry is left open. -/
def NoReset (k : Nat) (s : State) : Prop := ∀ p ∈ s.inputs.take k, p.rst = false

/-- The next step accepts the word `w` (spec/10_state.md R34), under parameters that are `Config.wf`. -/
structure Accepts (s : State) (w : CmdWord) : Prop where
  cfgWf : s.cfg.wf
  idle  : s.st = .idle
  rst   : s.portNow.rst = false
  valid : s.portNow.cmdValid = true
  cmd   : s.portNow.cmd = w

/-- The next step accepts a word that decodes to `i`. -/
def Takes (s : State) (i : Instr) : Prop :=
  s.portNow.rst = false ∧ s.st = .idle ∧ s.portNow.cmdValid = true ∧ decode s.portNow.cmd = .ok i

/-- The next step is the last one of the dwell of digit 0, 1 or 2 (spec/43_display_multiplexer.md R172 row 16). -/
def EndsDwellBeforeLastDigit (s : State) : Prop :=
  s.portNow.rst = false ∧ s.st = .dwell ∧ s.dwellcnt = 1 ∧ s.didx ≠ 3

/-! ### Claims about the display -/

/-- `t` is the state `e`. About `ENV.OUT` this says something only while no `HAZ1` is recorded, as every claim about
`ENV.OUT` or the display must (spec/70_reset_and_hazards.md R226, spec/93_implementation_defined.md U8; log 13). -/
def MatchesUnlessHaz1 (t e : State) : Prop :=
  { t with envOut := 0 } = { e with envOut := 0 } ∧ (t.haz1 = false → t.envOut = e.envOut)

/-- Exactly one digit position is enabled, and bits 7 to 4 are 0: the mask is one of the four of `DIGITPOS`
(spec/20_memory.md R65). -/
def OneDigitEnabled (m : Byte) : Prop := m = 0x01 ∨ m = 0x02 ∨ m = 0x04 ∨ m = 0x08

/-! ### Events on the wire -/

/-- The events that put the bits of a list on the wire: data, clock up, clock down (spec/41_serial_out.md R120). -/
def bitEvents : List Bool → List PinEvent
  | []      => []
  | b :: bs => ⟨.data, b⟩ :: ⟨.clk, true⟩ :: ⟨.clk, false⟩ :: bitEvents bs

/-- The bits of a byte in sending order, bit 7 first (spec/20_memory.md R56). -/
def byteBits (b : Byte) : List Bool :=
  [b.getLsbD 7, b.getLsbD 6, b.getLsbD 5, b.getLsbD 4, b.getLsbD 3, b.getLsbD 2, b.getLsbD 1, b.getLsbD 0]

/-- The 24 events of `SEND b` (spec/41_serial_out.md R120). -/
def byteEvents (b : Byte) : List PinEvent := bitEvents (byteBits b)

/-- The 50 events of a frame: latch low, the segment byte, the digit-select byte, latch high
(spec/42_shift_register_frame.md R143). -/
def frameEvents (seg dsel : Byte) : List PinEvent :=
  ⟨.latch, false⟩ :: (byteEvents seg ++ byteEvents dsel ++ [⟨.latch, true⟩])

/-- The levels of the data line at the events `CLK <- 1` of a list of events, the line starting at `d`
(spec/41_serial_out.md R123). -/
def sampledBits : Bool → List PinEvent → List Bool
  | _, []      => []
  | d, e :: es =>
    match e.pin, e.level with
    | .data, b    => sampledBits b es
    | .clk, true  => d :: sampledBits d es
    | .clk, false => sampledBits d es
    | .latch, _   => sampledBits d es

/-- How often an event occurs in a list of events. -/
def countEvent (p : Pin) (b : Bool) (es : List PinEvent) : Nat := es.countP (fun e => e == ⟨p, b⟩)

/-- The two bytes of digit `i`'s frame (spec/43_display_multiplexer.md R163), on the wire. -/
def digitFrameEvents (c : Config) (v : Word) (en : Bool) (ix i : BitVec 2) : List PinEvent :=
  frameEvents (encodeDigit c (digitOf v i) (dpOn en ix i)) (digitPosRead i)

/-- The 200 events of a sweep (spec/43_display_multiplexer.md R169). -/
def sweepEvents (c : Config) (v : Word) (en : Bool) (ix : BitVec 2) : List PinEvent :=
  digitFrameEvents c v en ix 0 ++ digitFrameEvents c v en ix 1 ++
    digitFrameEvents c v en ix 2 ++ digitFrameEvents c v en ix 3

/-! ### Invariants -/

/-- The invariants that spec/10_state.md R39 lists, in its order. -/
structure SequencerLegal (s : State) : Prop where
  stCode   : s.st.code ≠ 3
  upc      : s.upc.val ≤ 49
  cnt      : s.dwellcnt ≤ s.cfg.dwellTicks
  dwell    : s.st = .dwell → s.opr = .render ∧ s.latch = true ∧ s.clk = false ∧
               1 ≤ s.dwellcnt ∧ s.dwellcnt ≤ s.cfg.dwellTicks
  shiftOpr : s.st = .shift → s.opr = .send ∨ s.opr = .write ∨ s.opr = .render
  sendUpc  : s.st = .shift → s.opr = .send → 1 ≤ s.upc.val ∧ s.upc.val ≤ 24
  idleClk  : s.st = .idle → s.clk = false

/-- In a SHIFT step with micro-step `u` to come, the lines and the shift stage stand where the `u` micro-steps before it
left them: the clock is up only between the two clock assignments of a bit, the data line holds the last bit sent, and
the `u / 3` bits that were clocked out of `FRAME` stand in the low end of `ENV.SR`
(spec/41_serial_out.md R121, spec/20_memory.md R59). -/
structure ShiftTracks (s : State) : Prop where
  clk  : s.clk = decide (3 ≤ s.upc.val ∧ s.upc.val % 3 = 0)
  data : 2 ≤ s.upc.val → s.data = s.frame.getLsbD (15 - (s.upc.val - 2) / 3)
  sr   : ∀ j, j < s.upc.val / 3 → s.envSr.getLsbD j = s.frame.getLsbD (16 - s.upc.val / 3 + j)

/-- An invariant that every step keeps: what R39 lists, and what makes it inductive. -/
structure MachineInv (s : State) : Prop where
  cfgWf       : s.cfg.wf
  legal       : SequencerLegal s
  cntZero     : s.st ≠ .dwell → s.dwellcnt = 0
  shiftTracks : s.st = .shift → ShiftTracks s
  frameLatch  : s.st = .shift → s.opr ≠ .send → 1 ≤ s.upc.val → s.latch = false
  renderFrame : s.st ≠ .idle → s.opr = .render → s.frame = frameFor s.cfg s.val s.dpen s.dpidx s.didx
  dwellUpc    : s.st = .dwell → s.upc = 49
  dwellData   : s.st = .dwell → s.data = s.frame.getLsbD 0
  dwellSr     : s.st = .dwell → s.envSr = s.frame
  dwellOut    : s.st = .dwell → s.haz1 = false → s.envOut = s.frame

/-- `s` with the lines, the external register and the events that `t` has, and with the model's bookkeeping of one step
without a response (logs 1, 10, 11): what a step that assigns a line leaves, before the sequencer's own part of it. -/
def State.withLinesOf (s t : State) : State :=
  { s with
    data := t.data, clk := t.clk, latch := t.latch, envSr := t.envSr, envOut := t.envOut, trace := t.trace
    rsp := none, stepNo := s.stepNo + 1, inputs := s.inputs.tail }

/-! ### Hosts -/

/-- The host issues only `RENDER` and `ENC` (spec/20_memory.md R65). -/
def OnlyRenderEnc (ps : List PortSample) : Prop :=
  ∀ p ∈ ps, p.cmdValid = true →
    (∃ d dp, decode p.cmd = .ok (.enc d dp)) ∨ (∃ v en ix, decode p.cmd = .ok (.render v en ix))

/-- The display under a host that issues only `RENDER` and `ENC`, from the first latch edge on: no `SEND` or `WRITE` is in
progress, no `HAZ1` is recorded, and exactly one digit position is enabled (spec/20_memory.md R65). -/
structure UnderRender (s : State) : Prop where
  inv      : MachineInv s
  noHaz1   : s.haz1 = false
  host     : OnlyRenderEnc s.inputs
  op       : s.st ≠ .idle → s.opr = .render
  oneDigit : OneDigitEnabled s.shownMask

/-- The commands `LATCH 0`, `SEND s`, `SEND m`, `LATCH 1`, with no idle step between them
(spec/42_shift_register_frame.md R148). -/
def handBuiltFrame (seg dsel : Byte) : List CmdWord :=
  [encode (.latch false), encode (.send seg), encode (.send dsel), encode (.latch true)]

/-- The steps in which the commands of a list complete, the first one accepted in step `n + 1`, with no idle step
between them (spec/70_reset_and_hazards.md R234). -/
def completionSteps (c : Config) : Nat → List CmdWord → List Nat
  | _, []      => []
  | n, w :: ws => (n + wordSteps c w) :: completionSteps c (n + wordSteps c w) ws

/-- A run is safe when it reaches a state in which nothing forbids a claim about the display. -/
def SafeRun (k : Nat) (s : State) : Prop := ∃ t, run k s = .next t ∧ t.haz1 = false

end Sys2Proof.Machine
end

