-- ==== Sys2Proof/Certificates/Slice0/Obligations.lean ====
section
/-!
DEFINITION. The statements for the provers. In every statement about the display the contents of `ENV.OUT` are claimed
only where no `HAZ1` is recorded (spec/93_implementation_defined.md U8; log 13). `Accepts s w` says that the next step
accepts the word `w` (spec/10_state.md R34); a state in the middle of a step, as a meaning sees it, has `stepNo` already
counted. What a statement says of `stepNo`, `inputs`, `rsp` between responses, `cfg` and `haz1` is the model's own
bookkeeping (logs 10, 1, 11, 3, 7), not a rule of the spec: no rule is cited for it.
-/
open Sys2Proof Sys2Proof.Machine

/-! ### Encoding -/

/-- Thirteen worked words of spec/30_encoding.md R86, one or more of each operation and the three illegal ones, and the
word of vector V43 (spec/95_test_vectors.md, laid out by R82), whose `DPEN` is 0 and `DPIDX` is 3. -/
def Obligations.WorkedWordsDecode : Prop :=
  decode 0x000000 = .ok (.enc 0 false) ∧
  decode 0x000017 = .ok (.enc 7 true) ∧
  decode 0x00000A = .ok (.enc 10 false) ∧
  decode 0x2000A4 = .ok (.send 0xA4) ∧
  decode 0x400000 = .ok (.latch false) ∧
  decode 0x400001 = .ok (.latch true) ∧
  decode 0x60F901 = .ok (.write 0xF9 0x01) ∧
  decode 0x8004D2 = .ok (.render 1234 false 0) ∧
  decode 0x8500F5 = .ok (.render 245 true 1) ∧
  decode 0x87270F = .ok (.render 9999 true 3) ∧
  decode 0x8300F5 = .ok (.render 245 false 3) ∧
  decode 0xA00000 = .error .reservedOp ∧
  decode 0x880000 = .error .reservedBit ∧
  decode 0x200100 = .error .mustBeZero

/-- Decoding the word of an operation gives the operation back, with every operand (spec/30_encoding.md R77 to R83). -/
def Obligations.DecodeOfEncodeIsTheInstruction : Prop :=
  ∀ i : Instr, decode (encode i) = .ok i

/-- A legal word is the word of the operation it decodes to, so no two words are the same operation
(spec/30_encoding.md R84, R85). -/
def Obligations.LegalWordIsTheWordOfItsInstruction : Prop :=
  ∀ (w : CmdWord) (i : Instr), decode w = .ok i → encode i = w

/-- A word is legal exactly when it belongs to one of the five rows of the opcode table, the rows are disjoint, and a
word is illegal exactly for one of the three reasons of spec/30_encoding.md R84. -/
def Obligations.LegalExactlyWhenInATableRow : Prop :=
  (∀ w : CmdWord, (∃ i, decode w = .ok i) ↔ ∃ r ∈ opcodeTable, r.holds w = true) ∧
  (∀ w : CmdWord, ∀ r ∈ opcodeTable, ∀ q ∈ opcodeTable, r.holds w = true → q.holds w = true → r = q) ∧
  (∀ w : CmdWord, (∃ e, decode w = .error e) ↔
    (5 ≤ (w.extractLsb' 21 3).toNat ∨ w.getLsbD 19 = true ∨ w.getLsbD 20 = true ∨
     (w.extractLsb' 21 3 = 0 ∧ ∃ j, 5 ≤ j ∧ j ≤ 18 ∧ w.getLsbD j = true) ∨
     (w.extractLsb' 21 3 = 1 ∧ ∃ j, 8 ≤ j ∧ j ≤ 18 ∧ w.getLsbD j = true) ∨
     (w.extractLsb' 21 3 = 2 ∧ ∃ j, 1 ≤ j ∧ j ≤ 18 ∧ w.getLsbD j = true) ∨
     (w.extractLsb' 21 3 = 3 ∧ ∃ j, 16 ≤ j ∧ j ≤ 18 ∧ w.getLsbD j = true)))

/-- spec/30_encoding.md R85: every word is exactly one operation, whose word it is, or illegal; and how many words each
operation has. -/
def Obligations.DecodeIsTotalWithTheStatedCounts : Prop :=
  (∀ w : CmdWord, (∃ i, decode w = .ok i ∧ encode i = w ∧ ∀ j, decode w = .ok j → j = i) ∨ (∃ e, decode w = .error e)) ∧
  {w : CmdWord | ∃ d dp, decode w = .ok (.enc d dp)}.ncard = 32 ∧
  {w : CmdWord | ∃ d dp, decode w = .ok (.enc d dp) ∧ d.toNat ≤ 9}.ncard = 20 ∧
  {w : CmdWord | ∃ b, decode w = .ok (.send b)}.ncard = 256 ∧
  {w : CmdWord | ∃ l, decode w = .ok (.latch l)}.ncard = 2 ∧
  {w : CmdWord | ∃ g m, decode w = .ok (.write g m)}.ncard = 65536 ∧
  {w : CmdWord | ∃ v en ix, decode w = .ok (.render v en ix)}.ncard = 524288

/-- spec/30_encoding.md R86: the assembler refuses exactly the operands that do not fit their fields, the word it makes
decodes to the operation with the operands given, the pseudo-instructions stand for the words they expand to, and
`.word` stands for its raw word. That `.word` refuses a number of more than 24 bits is the model's reading (log 16). -/
def Obligations.AssembledWordsDecodeToTheirOperands : Prop :=
  (∀ d dp, (∃ w, assemble (.enc d (some dp)) = some w) ↔ d ≤ 15 ∧ dp ≤ 1) ∧
  (∀ d, (∃ w, assemble (.enc d none) = some w) ↔ d ≤ 15) ∧
  (∀ d, (∃ w, assemble (.encDp d) = some w) ↔ d ≤ 15) ∧
  (∀ b, (∃ w, assemble (.send b) = some w) ↔ b ≤ 255) ∧
  (∀ l, (∃ w, assemble (.latch l) = some w) ↔ l ≤ 1) ∧
  (∀ g m, (∃ w, assemble (.write g m) = some w) ↔ g ≤ 255 ∧ m ≤ 255) ∧
  (∀ v, (∃ w, assemble (.render v none) = some w) ↔ v ≤ 65535) ∧
  (∀ v i, (∃ w, assemble (.render v (some i)) = some w) ↔ v ≤ 65535 ∧ i ≤ 3) ∧
  (∀ n, (∃ w, assemble (.word n) = some w) ↔ n < 2 ^ 24) ∧
  (∀ d dp, d ≤ 15 → dp ≤ 1 → ∃ w, ∃ x : BitVec 4, assemble (.enc d (some dp)) = some w ∧ x.toNat = d ∧
    decode w = .ok (.enc x (decide (dp = 1)))) ∧
  (∀ d, d ≤ 15 → assemble (.enc d none) = assemble (.enc d (some 0)) ∧ assemble (.encDp d) = assemble (.enc d (some 1))) ∧
  (∀ b, b ≤ 255 → ∃ w, ∃ x : Byte, assemble (.send b) = some w ∧ x.toNat = b ∧ decode w = .ok (.send x)) ∧
  (∀ l, l ≤ 1 → ∃ w, assemble (.latch l) = some w ∧ decode w = .ok (.latch (decide (l = 1)))) ∧
  (∀ g m, g ≤ 255 → m ≤ 255 → ∃ w, ∃ x y : Byte, assemble (.write g m) = some w ∧ x.toNat = g ∧ y.toNat = m ∧
    decode w = .ok (.write x y)) ∧
  (∀ v, v ≤ 65535 → ∃ w, ∃ x : Word, assemble (.render v none) = some w ∧ x.toNat = v ∧
    decode w = .ok (.render x false 0)) ∧
  (∀ v i, v ≤ 65535 → i ≤ 3 → ∃ w, ∃ x : Word, ∃ y : BitVec 2, assemble (.render v (some i)) = some w ∧
    x.toNat = v ∧ y.toNat = i ∧ decode w = .ok (.render x true y)) ∧
  (∀ n, n < 2 ^ 24 → ∃ w : CmdWord, assemble (.word n) = some w ∧ w.toNat = n) ∧
  assemble .latchLo = assemble (.latch 0) ∧ assemble .latchHi = assemble (.latch 1) ∧
  assemble .blank = assemble (.write 0xFF 0x00)

/-! ### Tables and digits -/

/-- spec/40_segment_encoder.md R100 and R101, for every accepted `SEGTAB`, and that `encode` reads nothing else. -/
def Obligations.EncoderReadsTheTableAndClearsBitSeven : Prop :=
  ∀ c : Config, c.wf → ∀ d : Fin 10,
    (∀ (e : Config) (dp : Bool), e.segTab = c.segTab → encodeDigit e d dp = encodeDigit c d dp) ∧
    encodeDigit c d false = c.segTab[d] ∧
    encodeDigit c d true = c.segTab[d] &&& 0x7F ∧
    encodeDigit c d true = encodeDigit c d false - 0x80 ∧
    (∀ j, j < 7 → (encodeDigit c d true).getLsbD j = (encodeDigit c d false).getLsbD j) ∧
    (encodeDigit c d false).getLsbD 7 = true ∧ (encodeDigit c d true).getLsbD 7 = false

/-- spec/40_segment_encoder.md R102, with the default `SEGTAB`, whose digit shapes are general knowledge (G1; log 4). -/
def Obligations.DefaultPatternsOfTheTenDigits : Prop :=
  (List.finRange 10).map (fun d => encodeDigit Config.reference d false) =
    [0xC0, 0xF9, 0xA4, 0xB0, 0x99, 0x92, 0x82, 0xF8, 0x80, 0x90] ∧
  (List.finRange 10).map (fun d => encodeDigit Config.reference d true) =
    [0x40, 0x79, 0x24, 0x30, 0x19, 0x12, 0x02, 0x78, 0x00, 0x10]

/-- spec/20_memory.md R51. -/
def Obligations.DigitPositionsAreOneHot : Prop :=
  digitPosRead 0 = 0x01 ∧ digitPosRead 1 = 0x02 ∧ digitPosRead 2 = 0x04 ∧ digitPosRead 3 = 0x08 ∧
  (∀ i : BitVec 2, digitPosRead i = 1#8 <<< i.toNat ∧
    (∀ j, j < 8 → ((digitPosRead i).getLsbD j = true ↔ j = i.toNat)) ∧
    (∀ j, 4 ≤ j → (digitPosRead i).getLsbD j = false))

/-- spec/43_display_multiplexer.md R160 and R161. -/
def Obligations.DigitsOfAValue : Prop :=
  (∀ v : Word,
    (digitOf v 0).val = (v.toNat / 1000) % 10 ∧ (digitOf v 1).val = (v.toNat / 100) % 10 ∧
    (digitOf v 2).val = (v.toNat / 10) % 10 ∧ (digitOf v 3).val = v.toNat % 10 ∧
    (∀ i, (digitOf v i).val ≤ 9) ∧
    (∀ i, digitWeight i ≠ 0 ∧ v.toNat / digitWeight i ≤ v.toNat) ∧
    (v.toNat ≤ 9999 →
      v.toNat = 1000 * (digitOf v 0).val + 100 * (digitOf v 1).val + 10 * (digitOf v 2).val + (digitOf v 3).val) ∧
    (∀ i, digitOf v i = digitOf (BitVec.ofNat 16 (v.toNat % 10000)) i)) ∧
  (digitOf 245 0 = 0 ∧ digitOf 245 1 = 2 ∧ digitOf 245 2 = 4 ∧ digitOf 245 3 = 5)

/-- spec/43_display_multiplexer.md R162 and R163: which digit has its decimal point on, and the frame of a digit. -/
def Obligations.DecimalPointAndFrameOfADigit : Prop :=
  (∀ (en : Bool) (ix i : BitVec 2), dpOn en ix i = true ↔ en = true ∧ ix = i) ∧
  (∀ (c : Config) (v : Word) (en : Bool) (ix i : BitVec 2),
    (frameFor c v en ix i).extractLsb' 8 8 = encodeDigit c (digitOf v i) (dpOn en ix i) ∧
    (frameFor c v en ix i).extractLsb' 0 8 = digitPosRead i ∧
    OneDigitEnabled ((frameFor c v en ix i).extractLsb' 0 8))

/-! ### Reset -/

/-- The reset values of spec/10_state.md R20. The values of `HAZ1` (log 7), `stepNo` (log 10), `inputs` (log 1) and `cfg`
(logs 3, 4) are the model's. `ENV` holds a free draw (log 5), of which nothing is said. -/
def Obligations.ResetValues : Prop :=
  State.reset.val = 0x0000 ∧ State.reset.dpen = false ∧ State.reset.dpidx = 0 ∧ State.reset.frame = 0x0000 ∧
  State.reset.pattern = 0xFF ∧ State.reset.st = .idle ∧ State.reset.opr.code = 0 ∧ State.reset.didx = 0 ∧
  State.reset.upc = 0 ∧ State.reset.dwellcnt = 0 ∧ State.reset.data = false ∧ State.reset.clk = false ∧
  State.reset.latch = false ∧ State.reset.status.code = 0 ∧ State.reset.trace = [] ∧ State.reset.rspLog = [] ∧
  State.reset.rspValid = false ∧ State.reset.haz1 = false ∧ State.reset.stepNo = 0 ∧ State.reset.inputs = [] ∧
  State.reset.cfg = Config.reference ∧ Config.reference.wf

/-- spec/70_reset_and_hazards.md R220 to R223: a step with `rst = 1`, from any state and whatever the other ports carry.
An operation in progress is abandoned; the external register keeps its contents. That the mark `HAZ1` survives is the
model's reading of R226 (log 7). -/
def Obligations.ResetStepFromAnyState : Prop :=
  ∀ s : State, s.cfg.wf → s.portNow.rst = true →
    ∃ t, step s = .next t ∧
      t.val = 0x0000 ∧ t.dpen = false ∧ t.dpidx = 0 ∧ t.frame = 0x0000 ∧ t.pattern = 0xFF ∧ t.st = .idle ∧
      t.opr = .none ∧ t.didx = 0 ∧ t.upc = 0 ∧ t.dwellcnt = 0 ∧ t.data = false ∧ t.clk = false ∧ t.latch = false ∧
      t.status = .ok ∧ t.trace = [] ∧ t.rspLog = [] ∧ t.rsp = none ∧ t.stepNo = 0 ∧
      t.envSr = s.envSr ∧ (t.haz1 = false → t.envOut = s.envOut) ∧
      t.haz1 = s.haz1 ∧ t.cfg = s.cfg ∧ t.inputs = s.inputs.tail

/-! ### A step, an accept, a rejection -/

/-- An accept step runs the meaning of the instruction that the word decodes to, on the state in which the port sample is
taken, the step is counted and the response port is empty (spec/10_state.md R34). -/
def Obligations.StepRunsTheAcceptedInstruction : Prop :=
  ∀ (s : State) (w : CmdWord) (i : Instr), Accepts s w → decode w = .ok i →
    step s = exec i { s with inputs := s.inputs.tail, rsp := none, stepNo := s.stepNo + 1 }

/-- A word placed by `withFetchWord` is the one that the next step runs (log 2). -/
def Obligations.FetchWordRunsItsInstruction : Prop :=
  ∀ (s : State) (nbits w : Nat) (i : Instr), s.cfg.wf → decodeTableWord nbits w = some i →
    step (s.withFetchWord nbits w) = exec i { s with st := .idle, rsp := none, stepNo := s.stepNo + 1 }

/-- spec/43_display_multiplexer.md R172 row 2: an idle step without a command changes nothing but the model's own
bookkeeping. -/
def Obligations.IdleStepChangesNothing : Prop :=
  ∀ s : State, s.cfg.wf → s.st = .idle → s.portNow.rst = false → s.portNow.cmdValid = false →
    ∃ t, step s = .next t ∧
      MatchesUnlessHaz1 t { s with inputs := s.inputs.tail, rsp := none, stepNo := s.stepNo + 1 }

/-- spec/60_exceptions.md R192 and R193: a word in no row of the opcode table is rejected in its accept step. -/
def Obligations.IllegalWordIsRejected : Prop :=
  ∀ (s : State) (w : CmdWord), Accepts s w → (∀ r ∈ opcodeTable, r.holds w = false) →
    ∃ t, step s = .next t ∧
      MatchesUnlessHaz1 t
        { s with
          status := .illegalCmd
          rsp    := some ⟨.illegalCmd, s.pattern⟩
          rspLog := s.rspLog ++ [⟨s.stepNo + 1, ⟨.illegalCmd, s.pattern⟩⟩]
          stepNo := s.stepNo + 1
          inputs := s.inputs.tail }

/-- spec/40_segment_encoder.md R104: a digit from 10 to 15. -/
def Obligations.EncRejectsADigitAboveNine : Prop :=
  ∀ (s : State) (d : BitVec 4) (dp : Bool), s.st = .idle → 10 ≤ d.toNat →
    ∃ t, exec (.enc d dp) s = .next t ∧
      MatchesUnlessHaz1 t
        { s with
          status := .invalidDigit
          rsp    := some ⟨.invalidDigit, s.pattern⟩
          rspLog := s.rspLog ++ [⟨s.stepNo, ⟨.invalidDigit, s.pattern⟩⟩] }

/-- spec/40_segment_encoder.md R103: `ENC` of a digit from 0 to 9 writes `PATTERN` and `STATUS`, responds, and leaves
everything else. -/
def Obligations.EncReturnsThePatternOfItsDigit : Prop :=
  ∀ (s : State) (d : Fin 10) (dp : Bool), s.st = .idle →
    ∃ t, exec (.enc (BitVec.ofNat 4 d.val) dp) s = .next t ∧
      MatchesUnlessHaz1 t
        { s with
          pattern := if dp then s.cfg.segTab[d] &&& 0x7F else s.cfg.segTab[d]
          status  := .ok
          rsp     := some ⟨.ok, if dp then s.cfg.segTab[d] &&& 0x7F else s.cfg.segTab[d]⟩
          rspLog  := s.rspLog ++ [⟨s.stepNo, ⟨.ok, if dp then s.cfg.segTab[d] &&& 0x7F else s.cfg.segTab[d]⟩⟩] }

/-- spec/42_shift_register_frame.md R141: the words of `LATCH`; it makes one assignment of the latch line, responds, and
leaves everything else. A rising edge copies `ENV.SR` to `ENV.OUT`. -/
def Obligations.LatchDrivesTheLatchLine : Prop :=
  (∀ w : CmdWord, w &&& 0xFFFFFE = 0x400000 ↔ ∃ l, decode w = .ok (.latch l) ∧ l = w.getLsbD 0) ∧
  (∀ (s : State) (l : Bool), s.st = .idle →
    ∃ t, exec (.latch l) s = .next t ∧
      MatchesUnlessHaz1 t
        { s with
          latch  := l
          trace  := s.trace ++ [⟨.latch, l⟩]
          envOut := if s.latch = false ∧ l = true then s.envSr else s.envOut
          status := .ok
          rsp    := some ⟨.ok, s.pattern⟩
          rspLog := s.rspLog ++ [⟨s.stepNo, ⟨.ok, s.pattern⟩⟩] })

/-- The accept step of `SEND` (spec/41_serial_out.md R120): four registers are loaded, no pin is assigned, nothing else
changes but the violation mark (spec/70_reset_and_hazards.md R226). -/
def Obligations.SendAcceptLoadsTheByte : Prop :=
  ∀ (s : State) (b : Byte), s.st = .idle →
    ∃ t, exec (.send b) s = .next t ∧
      MatchesUnlessHaz1 t
        { s with frame := b ++ 0x00#8, opr := .send, upc := 1, st := .shift, haz1 := s.haz1 || s.latch }

/-- The accept step of `WRITE` (spec/42_shift_register_frame.md R142): four registers are loaded, whatever the operands
(R145), no pin is assigned, nothing else changes. -/
def Obligations.WriteAcceptLoadsTheFrame : Prop :=
  ∀ (s : State) (g m : Byte), s.st = .idle →
    ∃ t, exec (.write g m) s = .next t ∧
      MatchesUnlessHaz1 t { s with frame := g ++ m, opr := .write, upc := 0, st := .shift }

/-- The accept step of `RENDER` (spec/43_display_multiplexer.md R164): the value, the decimal-point spec and the frame of
digit 0 are loaded, no pin is assigned, nothing else changes. -/
def Obligations.RenderAcceptLoadsTheFirstDigit : Prop :=
  ∀ (s : State) (v : Word) (en : Bool) (ix : BitVec 2), s.st = .idle →
    ∃ t, exec (.render v en ix) s = .next t ∧
      MatchesUnlessHaz1 t
        { s with
          val := v, dpen := en, dpidx := ix, didx := 0
          frame := encodeDigit s.cfg (digitOf v 0) (en && ix == 0) ++ 0x01#8
          opr := .render, upc := 0, st := .shift }

/-! ### Micro-steps -/

/-- spec/41_serial_out.md R121 and spec/42_shift_register_frame.md R146: the one pin assignment of each SHIFT step, of
`SEND` (`UPC` 1 to 24) and of a frame (`UPC` 0 to 49). With it the other columns of rows 10 to 14 of
spec/43_display_multiplexer.md R172: the external register reacts to the edge, if there is one; `UPC` advances, or the
last micro-step of `SEND` and `WRITE` responds OK, or that of a frame of `RENDER` starts the dwell; nothing else
changes. -/
def Obligations.ShiftStepMakesItsAssignment : Prop :=
  ∀ s : State, s.cfg.wf → s.portNow.rst = false → s.st = .shift →
    (s.opr = .send ∧ 1 ≤ s.upc.val ∧ s.upc.val ≤ 24) ∨ s.opr = .write ∨ s.opr = .render →
    ∃ t, step s = .next t ∧
      (s.upc.val = 0 → t.trace = s.trace ++ [⟨.latch, false⟩] ∧
        t.latch = false ∧ t.clk = s.clk ∧ t.data = s.data) ∧
      (s.upc.val = 49 → t.trace = s.trace ++ [⟨.latch, true⟩] ∧
        t.latch = true ∧ t.clk = s.clk ∧ t.data = s.data) ∧
      (1 ≤ s.upc.val → s.upc.val ≤ 48 → (s.upc.val - 1) % 3 = 0 →
        t.trace = s.trace ++ [⟨.data, s.frame.getLsbD (15 - (s.upc.val - 1) / 3)⟩] ∧
        t.data = s.frame.getLsbD (15 - (s.upc.val - 1) / 3) ∧ t.clk = s.clk ∧ t.latch = s.latch) ∧
      (1 ≤ s.upc.val → s.upc.val ≤ 48 → (s.upc.val - 1) % 3 = 1 →
        t.trace = s.trace ++ [⟨.clk, true⟩] ∧ t.clk = true ∧ t.data = s.data ∧ t.latch = s.latch) ∧
      (1 ≤ s.upc.val → s.upc.val ≤ 48 → (s.upc.val - 1) % 3 = 2 →
        t.trace = s.trace ++ [⟨.clk, false⟩] ∧ t.clk = false ∧ t.data = s.data ∧ t.latch = s.latch) ∧
      t.envSr = (if s.clk = false ∧ t.clk = true then s.envSr.extractLsb' 0 15 ++ BitVec.ofBool s.data else s.envSr) ∧
      (t.haz1 = false → t.envOut = if s.latch = false ∧ t.latch = true then s.envSr else s.envOut) ∧
      (¬ (s.opr = .send ∧ s.upc.val = 24) → s.upc.val ≠ 49 →
        t.upc.val = s.upc.val + 1 ∧ t = { s.withLinesOf t with upc := t.upc }) ∧
      ((s.opr = .send ∧ s.upc.val = 24) ∨ (s.opr = .write ∧ s.upc.val = 49) →
        t = { s.withLinesOf t with
              st := .idle, status := .ok, rsp := some ⟨.ok, s.pattern⟩
              rspLog := s.rspLog ++ [⟨s.stepNo + 1, ⟨.ok, s.pattern⟩⟩] }) ∧
      (s.opr = .render → s.upc.val = 49 →
        t = { s.withLinesOf t with dwellcnt := s.cfg.dwellTicks, st := .dwell })

/-- spec/43_display_multiplexer.md R165: the three cases of a DWELL step. -/
def Obligations.DwellStepCountsDownAndMovesOn : Prop :=
  ∀ s : State, s.cfg.wf → s.portNow.rst = false → s.st = .dwell → 1 ≤ s.dwellcnt →
    ∃ t, step s = .next t ∧
      (s.dwellcnt ≠ 1 → MatchesUnlessHaz1 t
        { s with dwellcnt := s.dwellcnt - 1, inputs := s.inputs.tail, rsp := none, stepNo := s.stepNo + 1 }) ∧
      (s.dwellcnt = 1 → s.didx ≠ 3 → MatchesUnlessHaz1 t
        { s with
          dwellcnt := 0, didx := s.didx + 1, frame := frameFor s.cfg s.val s.dpen s.dpidx (s.didx + 1)
          upc := 0, st := .shift, inputs := s.inputs.tail, rsp := none, stepNo := s.stepNo + 1 }) ∧
      (s.dwellcnt = 1 → s.didx = 3 → MatchesUnlessHaz1 t
        { s with
          dwellcnt := 0, st := .idle, status := if s.val.toNat > 9999 then .ovf else .ok
          rsp := some ⟨if s.val.toNat > 9999 then .ovf else .ok, s.pattern⟩
          rspLog := s.rspLog ++ [⟨s.stepNo + 1, ⟨if s.val.toNat > 9999 then .ovf else .ok, s.pattern⟩⟩]
          inputs := s.inputs.tail, stepNo := s.stepNo + 1 })

/-! ### Whole operations -/

/-- spec/41_serial_out.md R120: `SEND b` completes in 25 steps, whatever the latch line and whatever the host presents
meanwhile. `CLK = 0` holds in every reachable IDLE state (spec/10_state.md R39). -/
def Obligations.SendCompletesIn25Steps : Prop :=
  ∀ (s : State) (b : Byte), Accepts s (encode (.send b)) → s.clk = false → NoReset 25 s →
    ∃ t, run 25 s = .next t ∧
      MatchesUnlessHaz1 t
        { s with
          frame := b ++ 0x00#8, opr := .send, upc := 24, data := b.getLsbD 0
          status := .ok, rsp := some ⟨.ok, s.pattern⟩
          rspLog := s.rspLog ++ [⟨s.stepNo + 25, ⟨.ok, s.pattern⟩⟩]
          trace := s.trace ++ byteEvents b
          envSr := s.envSr.extractLsb' 0 8 ++ b
          haz1 := s.haz1 || s.latch
          stepNo := s.stepNo + 25, inputs := s.inputs.drop 25 }

/-- spec/41_serial_out.md R123: the levels of the data line at the eight clock pulses of `SEND b` are the bits of `b`, and
the byte stands in the low half of `ENV.SR`, the old low half above it. -/
def Obligations.SendRoundTrip : Prop :=
  ∀ (s : State) (b : Byte), Accepts s (encode (.send b)) → s.clk = false → NoReset 25 s →
    ∃ t es, run 25 s = .next t ∧ t.trace = s.trace ++ es ∧ es.length = 24 ∧
      sampledBits s.data es = byteBits b ∧
      t.envSr.extractLsb' 0 8 = b ∧ t.envSr.extractLsb' 8 8 = s.envSr.extractLsb' 0 8

/-- spec/42_shift_register_frame.md R142: `WRITE s, m` completes in 51 steps, whatever the latch line, whatever
`ENV.SR` held and whatever the host presents meanwhile. -/
def Obligations.WriteCompletesIn51Steps : Prop :=
  ∀ (s : State) (g m : Byte), Accepts s (encode (.write g m)) → s.clk = false → NoReset 51 s →
    ∃ t, run 51 s = .next t ∧
      MatchesUnlessHaz1 t
        { s with
          frame := g ++ m, opr := .write, upc := 49, data := m.getLsbD 0, latch := true
          status := .ok, rsp := some ⟨.ok, s.pattern⟩
          rspLog := s.rspLog ++ [⟨s.stepNo + 51, ⟨.ok, s.pattern⟩⟩]
          trace := s.trace ++ frameEvents g m
          envSr := g ++ m, envOut := g ++ m
          stepNo := s.stepNo + 51, inputs := s.inputs.drop 51 }

/-- spec/42_shift_register_frame.md R143: the ordering property of the events of a `WRITE`. -/
def Obligations.WriteBracketsSixteenClockPulses : Prop :=
  ∀ (s : State) (g m : Byte), Accepts s (encode (.write g m)) → NoReset 51 s →
    ∃ t bits, run 51 s = .next t ∧ bits.length = 16 ∧ bits = byteBits g ++ byteBits m ∧
      t.trace = s.trace ++ (⟨.latch, false⟩ :: (bitEvents bits ++ [⟨.latch, true⟩])) ∧
      t.trace.length = s.trace.length + 50 ∧
      countEvent .clk true t.trace = countEvent .clk true s.trace + 16 ∧
      countEvent .clk false t.trace = countEvent .clk false s.trace + 16 ∧
      countEvent .latch false t.trace = countEvent .latch false s.trace + 1 ∧
      countEvent .latch true t.trace = countEvent .latch true s.trace + 1

/-- spec/42_shift_register_frame.md R144: inside a frame `ENV.OUT` changes at micro-step 49 only, from what it held to
the whole frame. -/
def Obligations.FrameAppearsAtItsLastMicroStepOnly : Prop :=
  ∀ s : State, MachineInv s → s.portNow.rst = false → s.st = .shift → s.opr ≠ .send →
    ∃ t, step s = .next t ∧ t.frame = s.frame ∧
      (s.upc ≠ 49 → t.haz1 = false → t.envOut = s.envOut) ∧
      (s.upc = 49 → t.envSr = s.frame ∧ (t.haz1 = false → t.envOut = s.frame))

/-- spec/42_shift_register_frame.md R148: a frame built from `LATCH 0`, `SEND s`, `SEND m`, `LATCH 1` against
`WRITE s, m`, from the same idle state and with no idle steps between the commands. -/
def Obligations.HandBuiltFrameEqualsWrite : Prop :=
  ∀ (s : State) (g m : Byte), s.cfg.wf → s.st = .idle → s.clk = false →
    ∃ a b,
      run 52 { s with inputs := programPorts s.cfg (handBuiltFrame g m) } = .next a ∧
      run 51 { s with inputs := programPorts s.cfg [encode (.write g m)] } = .next b ∧
      a.trace = b.trace ∧ b.trace = s.trace ++ frameEvents g m ∧
      a.data = b.data ∧ a.clk = b.clk ∧ a.latch = b.latch ∧ a.envSr = b.envSr ∧
      a.haz1 = s.haz1 ∧ b.haz1 = s.haz1 ∧ (s.haz1 = false → a.envOut = b.envOut) ∧
      a.frame = m ++ 0x00#8 ∧ a.opr = .send ∧ b.frame = g ++ m ∧ b.opr = .write ∧
      a.rspLog.length = s.rspLog.length + 4 ∧ b.rspLog.length = s.rspLog.length + 1

/-- spec/43_display_multiplexer.md R164: `RENDER` completes in `1 + 4 × (50 + DWELL_TICKS)` steps, for every value of the
parameters, whatever the host presents meanwhile. -/
def Obligations.RenderSweepsTheFourDigits : Prop :=
  ∀ (s : State) (v : Word) (en : Bool) (ix : BitVec 2),
    Accepts s (encode (.render v en ix)) → s.clk = false → NoReset (1 + 4 * (50 + s.cfg.dwellTicks)) s →
    ∃ t, run (1 + 4 * (50 + s.cfg.dwellTicks)) s = .next t ∧
      MatchesUnlessHaz1 t
        { s with
          val := v, dpen := en, dpidx := ix, didx := 3
          frame := frameFor s.cfg v en ix 3, opr := .render, upc := 49, dwellcnt := 0
          data := false, latch := true
          status := if v.toNat ≤ 9999 then .ok else .ovf
          rsp := some ⟨if v.toNat ≤ 9999 then .ok else .ovf, s.pattern⟩
          rspLog := s.rspLog ++
            [⟨s.stepNo + (1 + 4 * (50 + s.cfg.dwellTicks)), ⟨if v.toNat ≤ 9999 then .ok else .ovf, s.pattern⟩⟩]
          trace := s.trace ++ sweepEvents s.cfg v en ix
          envSr := frameFor s.cfg v en ix 3, envOut := frameFor s.cfg v en ix 3
          stepNo := s.stepNo + (1 + 4 * (50 + s.cfg.dwellTicks))
          inputs := s.inputs.drop (1 + 4 * (50 + s.cfg.dwellTicks)) }

/-- spec/43_display_multiplexer.md R169 and R170: the frame of digit `i` appears at the step with `UPC = 49` of its frame,
stays until the next digit's appears, and the latch line rises in no other step of the sweep. -/
def Obligations.SweepShowsEachDigitInTurn : Prop :=
  ∀ (s : State) (v : Word) (en : Bool) (ix : BitVec 2),
    Accepts s (encode (.render v en ix)) → MachineInv s → NoReset (1 + 4 * (50 + s.cfg.dwellTicks)) s →
    (∀ k, k ≤ 50 → ∃ t, run k s = .next t ∧ (t.haz1 = false → t.envOut = s.envOut)) ∧
    (∀ (i : BitVec 2) (j : Nat), j < 50 + s.cfg.dwellTicks →
      51 + i.toNat * (50 + s.cfg.dwellTicks) + j ≤ 1 + 4 * (50 + s.cfg.dwellTicks) →
      ∃ t, run (51 + i.toNat * (50 + s.cfg.dwellTicks) + j) s = .next t ∧
        (t.haz1 = false → t.envOut = frameFor s.cfg v en ix i)) ∧
    (∀ k a b, k < 1 + 4 * (50 + s.cfg.dwellTicks) → run k s = .next a → run (k + 1) s = .next b →
      ((a.latch = false ∧ b.latch = true) ↔ ∃ i : BitVec 2, k + 1 = 51 + i.toNat * (50 + s.cfg.dwellTicks)))

/-- spec/43_display_multiplexer.md R167: a value above 9999 is swept exactly as the value modulo 10000 is; the two runs
differ in the value held and in the status code only. -/
def Obligations.OverflowSweepDiffersInItsStatusOnly : Prop :=
  ∀ (s : State) (v : Word) (en : Bool) (ix : BitVec 2), s.cfg.wf → s.st = .idle → s.clk = false → 9999 < v.toNat →
    ∃ a b,
      run (1 + 4 * (50 + s.cfg.dwellTicks)) { s with inputs := programPorts s.cfg [encode (.render v en ix)] } = .next a ∧
      run (1 + 4 * (50 + s.cfg.dwellTicks))
        { s with inputs := programPorts s.cfg [encode (.render (BitVec.ofNat 16 (v.toNat % 10000)) en ix)] } = .next b ∧
      a.st = .idle ∧ a.status = .ovf ∧ b.status = .ok ∧
      MatchesUnlessHaz1 a
        { b with
          val := v, status := .ovf, rsp := some ⟨.ovf, s.pattern⟩
          rspLog := s.rspLog ++ [⟨s.stepNo + (1 + 4 * (50 + s.cfg.dwellTicks)), ⟨.ovf, s.pattern⟩⟩] }

/-- spec/43_display_multiplexer.md R165: from a state of a dwell with `DWELLCNT` steps to come, the lines and the display
hold for exactly that many steps and no event is recorded. -/
def Obligations.DwellLastsItsCount : Prop :=
  ∀ s : State, MachineInv s → s.st = .dwell → NoReset s.dwellcnt s →
    (∀ k, k < s.dwellcnt → ∃ t, run k s = .next t ∧ t.st = .dwell ∧ t.dwellcnt = s.dwellcnt - k ∧
      t.trace = s.trace ∧ t.latch = true ∧ t.clk = false ∧ t.data = (digitPosRead s.didx).getLsbD 0 ∧
      (t.haz1 = false → t.envOut = s.frame)) ∧
    (∃ t, run s.dwellcnt s = .next t ∧ t.st ≠ .dwell ∧ t.dwellcnt = 0 ∧ t.trace = s.trace ∧
      t.latch = true ∧ t.clk = false ∧ t.data = (digitPosRead s.didx).getLsbD 0 ∧
      (t.haz1 = false → t.envOut = s.frame))

/-- spec/20_memory.md R63 after a `WRITE`: digit position `i` is enabled when bit `i` of the mask is 1, and segment `k` of
it is lit when, besides, bit `k` of the pattern is 0. -/
def Obligations.DisplayShowsTheWrittenPattern : Prop :=
  ∀ (s : State) (g m : Byte), Accepts s (encode (.write g m)) → s.clk = false → NoReset 51 s → s.haz1 = false →
    ∃ t, run 51 s = .next t ∧
      ∀ i : Fin 4, t.digitEnabled i = m.getLsbD i.val ∧
        ∀ k : Fin 8, t.segmentLit k i = (m.getLsbD i.val && !g.getLsbD k.val)

/-- spec/10_state.md R35 and spec/70_reset_and_hazards.md R234: whatever words the host issues, legal or not, each is
answered once, in order, with the status code of its kind (spec/60_exceptions.md R190, R195), in the step its duration
says. -/
def Obligations.EveryCommandIsAnsweredOnceInOrder : Prop :=
  ∀ (s : State) (ws : List CmdWord), s.cfg.wf → s.st = .idle → s.inputs = programPorts s.cfg ws →
    ∃ t, run (programSteps s.cfg ws) s = .next t ∧ t.st = .idle ∧ t.inputs = [] ∧
      t.rspLog.map (fun e => e.rsp.status) = s.rspLog.map (fun e => e.rsp.status) ++ ws.map wordStatus ∧
      t.rspLog.map (fun e => e.step) = s.rspLog.map (fun e => e.step) ++ completionSteps s.cfg s.stepNo ws

/-! ### Rules of the whole machine -/

/-- spec/20_memory.md R61: no step makes a rising edge of both `CLK` and `LATCH`, `DATA` does not change in the step that
raises `CLK`, and a reset makes no rising edge. -/
def Obligations.NoStepMakesTwoEdges : Prop :=
  ∀ s t : State, step s = .next t →
    ¬ (s.clk = false ∧ t.clk = true ∧ s.latch = false ∧ t.latch = true) ∧
    (s.clk = false → t.clk = true → t.data = s.data) ∧
    (s.portNow.rst = true → t.clk = false ∧ t.latch = false ∧ t.data = false)

/-- spec/20_memory.md R58: a step other than a reset either leaves the lines and `TRACE` alone or makes one assignment,
which is the one event it appends. -/
def Obligations.AtMostOneAssignmentPerStep : Prop :=
  ∀ s t : State, step s = .next t → s.portNow.rst = false →
    (t.trace = s.trace ∧ t.data = s.data ∧ t.clk = s.clk ∧ t.latch = s.latch) ∨
    (∃ b, t.trace = s.trace ++ [⟨.data, b⟩] ∧ t.data = b ∧ t.clk = s.clk ∧ t.latch = s.latch) ∨
    (∃ b, t.trace = s.trace ++ [⟨.clk, b⟩] ∧ t.data = s.data ∧ t.clk = b ∧ t.latch = s.latch) ∨
    (∃ b, t.trace = s.trace ++ [⟨.latch, b⟩] ∧ t.data = s.data ∧ t.clk = s.clk ∧ t.latch = b)

/-- spec/20_memory.md R59: `ENV.SR` shifts `DATA` in at a rising edge of `CLK`, in every step of the machine, and at
nothing else. -/
def Obligations.ShiftStageMovesAtClockEdgesOnly : Prop :=
  ∀ s t : State, step s = .next t →
    (s.clk = false → t.clk = true → t.envSr = s.envSr.extractLsb' 0 15 ++ BitVec.ofBool s.data) ∧
    (¬ (s.clk = false ∧ t.clk = true) → t.envSr = s.envSr)

/-- spec/20_memory.md R60, for the displays of which a claim may be made (U8): `ENV.OUT` takes `ENV.SR` at a rising edge of
`LATCH`, in every step of the machine, and changes at nothing else. -/
def Obligations.OutputStageMovesAtLatchEdgesOnly : Prop :=
  ∀ s t : State, step s = .next t → t.haz1 = false →
    (s.latch = false → t.latch = true → t.envOut = s.envSr) ∧
    (¬ (s.latch = false ∧ t.latch = true) → t.envOut = s.envOut)

/-- spec/10_state.md R34: in a step with `ST ≠ IDLE` the block ignores `cmd_valid` and `cmd`. -/
def Obligations.BusyBlockIgnoresTheCommandPorts : Prop :=
  ∀ (s : State) (p q : PortSample) (rest : List PortSample), s.st ≠ .idle → p.rst = q.rst →
    step { s with inputs := p :: rest } = step { s with inputs := q :: rest }

/-- spec/10_state.md R24: who writes `PATTERN`, over every step of the machine. -/
def Obligations.PatternIsWrittenByEncOnly : Prop :=
  ∀ s t : State, step s = .next t →
    (s.portNow.rst = true → t.pattern = 0xFF) ∧
    (∀ (d : BitVec 4) (dp : Bool) (h : d.toNat < 10), Takes s (.enc d dp) →
      t.pattern = encodeDigit s.cfg ⟨d.toNat, h⟩ dp) ∧
    (s.portNow.rst = false → (¬ ∃ d dp, d.toNat < 10 ∧ Takes s (.enc d dp)) → t.pattern = s.pattern) ∧
    (∀ r, t.rsp = some r → r.pattern = t.pattern)

/-- spec/10_state.md R21 and R22: who writes `VAL`, `DPEN` and `DPIDX`, over every step of the machine. -/
def Obligations.ValueRegistersAreWrittenByRenderOnly : Prop :=
  ∀ s t : State, step s = .next t →
    (s.portNow.rst = true → t.val = 0 ∧ t.dpen = false ∧ t.dpidx = 0) ∧
    (∀ v en ix, Takes s (.render v en ix) → t.val = v ∧ t.dpen = en ∧ t.dpidx = ix) ∧
    (s.portNow.rst = false → (¬ ∃ v en ix, Takes s (.render v en ix)) →
      t.val = s.val ∧ t.dpen = s.dpen ∧ t.dpidx = s.dpidx)

/-- spec/10_state.md R23: who writes `FRAME`, over every step of the machine. -/
def Obligations.FrameIsWrittenAtAcceptAndDwellEndOnly : Prop :=
  ∀ s t : State, step s = .next t →
    (s.portNow.rst = true → t.frame = 0) ∧
    (∀ b, Takes s (.send b) → t.frame = b ++ 0x00#8) ∧
    (∀ g m, Takes s (.write g m) → t.frame = g ++ m) ∧
    (∀ v en ix, Takes s (.render v en ix) → t.frame = frameFor s.cfg v en ix 0) ∧
    (EndsDwellBeforeLastDigit s → t.frame = frameFor s.cfg s.val s.dpen s.dpidx (s.didx + 1)) ∧
    (s.portNow.rst = false → ¬ EndsDwellBeforeLastDigit s → (¬ ∃ b, Takes s (.send b)) →
      (¬ ∃ g m, Takes s (.write g m)) → (¬ ∃ v en ix, Takes s (.render v en ix)) → t.frame = s.frame)

/-- spec/10_state.md R31 and R35: a response leaves the block IDLE, writes its code to `STATUS` and its entry to `RSPLOG`,
and carries `PATTERN`; a step without one writes neither. -/
def Obligations.ResponseWritesStatusAndEndsTheCommand : Prop :=
  ∀ s t : State, step s = .next t →
    (∀ r, t.rsp = some r →
      s.portNow.rst = false ∧ t.st = .idle ∧ t.status = r.status ∧ r.pattern = t.pattern ∧
      t.rspLog = s.rspLog ++ [⟨s.stepNo + 1, r⟩]) ∧
    (t.rsp = none → s.portNow.rst = false → t.status = s.status ∧ t.rspLog = s.rspLog)

/-- spec/10_state.md R25 to R29: who writes `ST`, `OPR`, `DIDX`, `UPC` and `DWELLCNT`, over every step of the machine.
The writes of the last DWELL step are those of spec/43_display_multiplexer.md R165 and R172 row 16 (log 18). -/
def Obligations.SequencerRegistersAreWrittenAtTheirEventsOnly : Prop :=
  ∀ s t : State, step s = .next t →
    (s.portNow.rst = true → t.st = .idle ∧ t.opr = .none ∧ t.didx = 0 ∧ t.upc = 0 ∧ t.dwellcnt = 0) ∧
    (∀ b, Takes s (.send b) →
      t.st = .shift ∧ t.opr = .send ∧ t.didx = s.didx ∧ t.upc = 1 ∧ t.dwellcnt = s.dwellcnt) ∧
    (∀ g m, Takes s (.write g m) →
      t.st = .shift ∧ t.opr = .write ∧ t.didx = s.didx ∧ t.upc = 0 ∧ t.dwellcnt = s.dwellcnt) ∧
    (∀ v en ix, Takes s (.render v en ix) →
      t.st = .shift ∧ t.opr = .render ∧ t.didx = 0 ∧ t.upc = 0 ∧ t.dwellcnt = s.dwellcnt) ∧
    (s.portNow.rst = false → s.st = .idle → (¬ ∃ b, Takes s (.send b)) → (¬ ∃ g m, Takes s (.write g m)) →
      (¬ ∃ v en ix, Takes s (.render v en ix)) →
      t.st = .idle ∧ t.opr = s.opr ∧ t.didx = s.didx ∧ t.upc = s.upc ∧ t.dwellcnt = s.dwellcnt) ∧
    (s.portNow.rst = false → s.st = .shift → t.opr = s.opr ∧ t.didx = s.didx ∧
      (¬ (s.opr = .send ∧ s.upc.val = 24) → s.upc.val ≠ 49 →
        t.st = .shift ∧ t.upc.val = s.upc.val + 1 ∧ t.dwellcnt = s.dwellcnt) ∧
      ((s.opr = .send ∧ s.upc.val = 24) ∨ (s.opr = .write ∧ s.upc.val = 49) →
        t.st = .idle ∧ t.upc = s.upc ∧ t.dwellcnt = s.dwellcnt ∧ t.rsp ≠ none) ∧
      (s.opr = .render → s.upc.val = 49 →
        t.st = .dwell ∧ t.upc = s.upc ∧ t.dwellcnt = s.cfg.dwellTicks ∧ t.latch = true)) ∧
    (s.portNow.rst = false → s.st = .dwell → t.opr = s.opr ∧ t.dwellcnt + 1 = s.dwellcnt ∧
      (s.dwellcnt ≠ 1 → t.st = .dwell ∧ t.didx = s.didx ∧ t.upc = s.upc) ∧
      (s.dwellcnt = 1 → s.didx ≠ 3 → t.st = .shift ∧ t.didx.toNat = s.didx.toNat + 1 ∧ t.upc = 0) ∧
      (s.dwellcnt = 1 → s.didx = 3 → t.st = .idle ∧ t.didx = s.didx ∧ t.upc = s.upc ∧ t.rsp ≠ none))

/-- spec/70_reset_and_hazards.md R226: the violation mark is recorded when a `SEND` is accepted with `LATCH = 1`, and no
step clears it. -/
def Obligations.HazardMarkIsRecordedAndKept : Prop :=
  ∀ s t : State, step s = .next t →
    (t.haz1 = true ↔ s.haz1 = true ∨ (s.latch = true ∧ ∃ b, Takes s (.send b)))

/-- spec/10_state.md R37: no step writes the parameters. Each step takes one port sample (the model's own, log 1). -/
def Obligations.ParametersAreNeverWritten : Prop :=
  ∀ s t : State, step s = .next t → t.cfg = s.cfg ∧ t.inputs = s.inputs.tail

/-- The faults of a step are exactly the unreachable sequencer states (spec/93_implementation_defined.md U9; log 8). -/
def Obligations.FaultsAreTheUnreachableStates : Prop :=
  ∀ (s : State) (f : Fault), step s = .fault f ↔
    s.cfg.wf ∧ s.portNow.rst = false ∧
    ((f = .shiftWithoutOperation ∧ s.st = .shift ∧ s.opr = .none) ∨
     (f = .sendOutsideByte ∧ s.st = .shift ∧ s.opr = .send ∧ (s.upc.val = 0 ∨ 24 < s.upc.val)) ∨
     (f = .dwellCountZero ∧ s.st = .dwell ∧ s.dwellcnt = 0))

/-- A step is refused exactly for a configuration of spec/93_implementation_defined.md U5 or U3 (log 6). That one without
`DWELL_TICKS = T_DWELL × F_CLK` runs is the model's choice (log 19). -/
def Obligations.OnlyBadConfigurationsAreRefused : Prop :=
  ∀ (s : State) (r : Refusal), step s = .refused r ↔
    r = .badConfiguration ∧ (s.cfg.dwellTicks = 0 ∨ ∃ d : Fin 10, s.cfg.segTab[d].getLsbD 7 = false)

/-! ### Invariants -/

/-- The state after power-up and reset meets the invariant, for all accepted parameters, all contents of the external
register and all port levels to come. -/
def Obligations.ResetMeetsTheInvariant : Prop :=
  ∀ (c : Config) (sr out : Word) (ps : List PortSample), c.wf → MachineInv (State.powerUp c sr out ps)

/-- Every step keeps the invariant, from every state that meets it, and no such step faults or is refused. -/
def Obligations.StepKeepsTheInvariant : Prop :=
  ∀ s : State, MachineInv s → ∃ t, step s = .next t ∧ MachineInv t

/-- spec/10_state.md R39, of every reachable state. -/
def Obligations.ReachableStatesAreLegal : Prop :=
  ∀ (c : Config) (sr out : Word) (ps : List PortSample) (k : Nat), c.wf →
    ∃ t, run k (State.powerUp c sr out ps) = .next t ∧ SequencerLegal t

/-- spec/10_state.md R29: `DWELLCNT` fits in `W_DWELL` bits, the least number of bits that hold `DWELL_TICKS`
(spec/00_scope.md R9). -/
def Obligations.DwellCounterFitsItsWidth : Prop :=
  (∀ s : State, MachineInv s → s.dwellcnt < 2 ^ s.cfg.wDwell) ∧
  (∀ c : Config, c.dwellTicks < 2 ^ c.wDwell ∧ ∀ n, c.dwellTicks < 2 ^ n → c.wDwell ≤ n) ∧
  Config.reference.wDwell = 11

/-- spec/60_exceptions.md R197: from every state that meets the invariant, unless it is reset, the block is IDLE again
within the steps of four frames and four dwells. -/
def Obligations.BlockReturnsToIdle : Prop :=
  ∀ s : State, MachineInv s → NoReset (4 * (50 + s.cfg.dwellTicks)) s →
    ∃ k t, k ≤ 4 * (50 + s.cfg.dwellTicks) ∧ run k s = .next t ∧ t.st = .idle

/-- spec/20_memory.md R65: from the first latch edge of a `RENDER` on, for as long as the host issues only `RENDER` and
`ENC`, exactly one digit position is enabled. The state it starts from meets the invariant and has no `HAZ1`, as the
state after reset does. -/
def Obligations.OneDigitIsEnabledUnderRender : Prop :=
  ∀ (s : State) (v : Word) (en : Bool) (ix : BitVec 2),
    Accepts s (encode (.render v en ix)) → MachineInv s → s.haz1 = false → OnlyRenderEnc s.inputs → NoReset 51 s →
    ∀ k, 51 ≤ k → ∃ t, run k s = .next t ∧ OneDigitEnabled t.shownMask

/-- The invariant behind spec/20_memory.md R65, of one step: the last micro-step of a frame of `RENDER` establishes it, and
every step keeps it, a reset included. The host's inputs, of which it says that they offer only `RENDER` and `ENC`, are
the model's field (log 1). -/
def Obligations.StepKeepsOneDigitEnabled : Prop :=
  (∀ s : State, UnderRender s → ∃ t, step s = .next t ∧ UnderRender t) ∧
  (∀ s : State, MachineInv s → s.haz1 = false → OnlyRenderEnc s.inputs → s.portNow.rst = false →
    s.st = .shift → s.opr = .render → s.upc = 49 → ∃ t, step s = .next t ∧ UnderRender t)

/-- The reference parameters meet `DWELL_TICKS = T_DWELL × F_CLK` (spec/00_scope.md R9). The flicker condition of R10
depends on `T_GAP_MAX`, which the spec leaves open: in the integer form of log 17 it holds for a gap of 7 ms, the
example of log 17, and fails for one of 8 ms. -/
def Obligations.ReferenceParametersDoNotFlicker : Prop :=
  Config.reference.dwellMatchesClock ∧ Config.reference.noFlicker 7000 ∧ ¬ Config.reference.noFlicker 8000
end

