-- ==== Sys2Proof/Laws/Bits.lean ====
section
/-!
SUPPORT. The bits of the words that are built by putting fields side by side: a frame, the shift stage after a shift, a
command word.
-/
namespace Sys2Proof

/-- Bit `k` of two bytes side by side. -/
theorem frame_getLsbD (x y : Byte) (k : Nat) :
    BitVec.getLsbD (x ++ y : Word) k = if k < 8 then y.getLsbD k else x.getLsbD (k - 8) :=
  BitVec.getLsbD_append

/-- The high byte of two bytes side by side. -/
theorem frame_hi (x y : Byte) : (x ++ y : Word).extractLsb' 8 8 = x := by
  apply BitVec.eq_of_getLsbD_eq
  intro k hk
  simp [frame_getLsbD, hk]

/-- The low byte of two bytes side by side. -/
theorem frame_lo (x y : Byte) : (x ++ y : Word).extractLsb' 0 8 = y := by
  apply BitVec.eq_of_getLsbD_eq
  intro k hk
  simp [frame_getLsbD, hk]

/-- Bit `k` of a command word (spec/30_encoding.md R76). -/
theorem packWord_getLsbD (op : BitVec 3) (x : BitVec 19) (k : Nat) :
    (packWord op x).getLsbD k =
      if k < 19 then x.getLsbD k else if k < 21 then false else op.getLsbD (k - 21) := by
  have h : (packWord op x).getLsbD k = (BitVec.append (op ++ 0#2) x).getLsbD k := rfl
  rw [h]
  have h2 : (BitVec.append (op ++ 0#2) x).getLsbD k = if k < 19 then x.getLsbD k else (op ++ 0#2).getLsbD (k - 19) :=
    BitVec.getLsbD_append
  rw [h2, BitVec.getLsbD_append]
  split
  · rfl
  · simp only [BitVec.getLsbD_zero, Nat.sub_sub, show (k - 19 < 2) = (k < 21) by simp; omega]

/-- The operand bits of a command word. -/
theorem packWord_extract (op : BitVec 3) (x : BitVec 19) (i n : Nat) (h : i + n ≤ 19) :
    (packWord op x).extractLsb' i n = x.extractLsb' i n := by
  apply BitVec.eq_of_getLsbD_eq
  intro k hk
  simp [BitVec.getLsbD_extractLsb', packWord_getLsbD, show i + k < 19 by omega]

/-- The operation code of a command word. -/
@[simp] theorem opField_packWord (op : BitVec 3) (x : BitVec 19) : opField (packWord op x) = op := by
  apply BitVec.eq_of_getLsbD_eq
  intro k hk
  simp [opField, packWord_getLsbD, hk, show ¬ 21 + k < 19 by omega]

/-- The reserved bits of a command word. -/
@[simp] theorem rsvField_packWord (op : BitVec 3) (x : BitVec 19) : rsvField (packWord op x) = 0 := by
  apply BitVec.eq_of_getLsbD_eq
  intro k hk
  simp [rsvField, BitVec.getLsbD_extractLsb', packWord_getLsbD, show 19 + k < 21 by omega]

/-- A command word is its operation code, its reserved bits and its operand bits. -/
theorem packWord_fields (w : CmdWord) (h : rsvField w = 0) : packWord (opField w) (w.extractLsb' 0 19) = w := by
  apply BitVec.eq_of_getLsbD_eq
  intro k hk
  rw [packWord_getLsbD]
  split
  · simp [*]
  · split
    · have := congrArg (fun v => BitVec.getLsbD v (k - 19)) h
      simp only [rsvField, BitVec.getLsbD_extractLsb',
        show k - 19 < 2 by omega, show 19 + (k - 19) = k by omega, decide_true, Bool.true_and] at this
      simpa using this.symm
    · simp [opField, show k - 21 < 3 by omega, show 21 + (k - 21) = k by omega]

/-! ### The operand bits of each operation -/

/-- Format E (spec/30_encoding.md R78). -/
theorem operandBits_enc_getLsbD (d : BitVec 4) (dp : Bool) (k : Nat) :
    (operandBits (.enc d dp)).getLsbD k = if k < 4 then d.getLsbD k else decide (k = 4) && dp := by
  have h1 : (operandBits (.enc d dp)).getLsbD k =
      if k < 4 then d.getLsbD k else BitVec.getLsbD (0#14 ++ BitVec.ofBool dp) (k - 4) := BitVec.getLsbD_append
  rw [h1, BitVec.getLsbD_append]
  by_cases h : k < 4
  · simp [h]
  · by_cases h4 : k = 4
    · simp [h4]
    · simp [h, h4, show ¬ k - 4 < 1 by omega]

/-- Format S (spec/30_encoding.md R79). -/
theorem operandBits_send_getLsbD (b : Byte) (k : Nat) :
    (operandBits (.send b)).getLsbD k = b.getLsbD k := by
  have h1 : (operandBits (.send b)).getLsbD k =
      if k < 8 then b.getLsbD k else (0#11).getLsbD (k - 8) := BitVec.getLsbD_append
  rw [h1]
  by_cases h : k < 8
  · simp [h]
  · simp [h, BitVec.getLsbD_of_ge b k (by omega)]

/-- Format L (spec/30_encoding.md R80). -/
theorem operandBits_latch_getLsbD (l : Bool) (k : Nat) :
    (operandBits (.latch l)).getLsbD k = (decide (k = 0) && l) := by
  have h1 : (operandBits (.latch l)).getLsbD k =
      if k < 1 then (BitVec.ofBool l).getLsbD k else (0#18).getLsbD (k - 1) := BitVec.getLsbD_append
  rw [h1]
  by_cases h : k = 0
  · simp [h]
  · simp [h, show ¬ k < 1 by omega]

/-- Format W (spec/30_encoding.md R81): the operand bits are the frame. -/
theorem operandBits_write_getLsbD (g m : Byte) (k : Nat) :
    (operandBits (.write g m)).getLsbD k = if k < 8 then m.getLsbD k else g.getLsbD (k - 8) := by
  have h1 : (operandBits (.write g m)).getLsbD k =
      if k < 8 then m.getLsbD k else BitVec.getLsbD (0#3 ++ g) (k - 8) := BitVec.getLsbD_append
  rw [h1, BitVec.getLsbD_append]
  by_cases h : k - 8 < 8
  · simp [h]
  · simp [h, BitVec.getLsbD_of_ge g (k - 8) (by omega)]

/-- Format R (spec/30_encoding.md R82). -/
theorem operandBits_render_getLsbD (v : Word) (en : Bool) (ix : BitVec 2) (k : Nat) :
    (operandBits (.render v en ix)).getLsbD k =
      if k < 16 then v.getLsbD k else if k < 18 then ix.getLsbD (k - 16) else decide (k = 18) && en := by
  have h1 : (operandBits (.render v en ix)).getLsbD k =
      if k < 16 then v.getLsbD k else BitVec.getLsbD (BitVec.ofBool en ++ ix) (k - 16) := BitVec.getLsbD_append
  rw [h1, BitVec.getLsbD_append]
  by_cases h : k < 16
  · simp [h]
  · by_cases h2 : k < 18
    · simp [h, h2, show k - 16 < 2 by omega]
    · by_cases h3 : k = 18
      · simp [h3]
      · simp [h, h2, h3, show ¬ k - 16 < 2 by omega]
        intro h4
        omega

/-! ### The shift stage -/

namespace Machine

/-- Bit `k` of the shift stage after a shift (spec/20_memory.md R59). -/
theorem shiftIn_getLsbD (sr : Word) (d : Bool) (k : Nat) :
    (shiftIn sr d).getLsbD k = if k = 0 then d else decide (k < 16) && sr.getLsbD (k - 1) := by
  have h : (shiftIn sr d).getLsbD k = if k < 1 then (BitVec.ofBool d).getLsbD k else (sr.extractLsb' 0 15).getLsbD (k - 1) :=
    BitVec.getLsbD_append
  rw [h]
  rcases k with _ | k
  · simp
  · simp [BitVec.getLsbD_extractLsb', show (k + 1 < 16) = (k < 15) from propext (by omega)]

/-- Bit `k` after a list of bits was shifted in: the last bit of the list is bit 0. -/
theorem foldl_shiftIn_getLsbD (bs : List Bool) (sr : Word) (k : Nat) (hk : k < 16) :
    (bs.foldl shiftIn sr).getLsbD k =
      if k < bs.length then bs.getD (bs.length - 1 - k) false else sr.getLsbD (k - bs.length) := by
  induction bs generalizing sr with
  | nil => simp
  | cons b bs ih =>
    rw [List.foldl_cons, ih, shiftIn_getLsbD]
    by_cases h : k < bs.length
    · simp [h, show k < bs.length + 1 by omega, show bs.length - k = (bs.length - 1 - k) + 1 by omega]
    · by_cases h2 : k = bs.length
      · simp [h2]
      · simp [h, show ¬ k < bs.length + 1 by omega, show ¬ k - bs.length = 0 by omega,
          show k - bs.length < 16 by omega, Nat.sub_sub]

end Machine

end Sys2Proof
end

