-- ==== Sys2Proof/Laws/State.lean ====
section
/-!
SUPPORT. One lemma per field and update of the state: what the shared operations of Machine/Ops.lean leave in each
field. All are true by computation, so that no later proof unfolds a record update.
-/
namespace Sys2Proof.Machine

variable (s : State)

/-! ### `driveLines` -/

@[simp] theorem driveLines_val (d c l : Bool) : (driveLines d c l s).val = s.val := rfl
@[simp] theorem driveLines_dpen (d c l : Bool) : (driveLines d c l s).dpen = s.dpen := rfl
@[simp] theorem driveLines_dpidx (d c l : Bool) : (driveLines d c l s).dpidx = s.dpidx := rfl
@[simp] theorem driveLines_frame (d c l : Bool) : (driveLines d c l s).frame = s.frame := rfl
@[simp] theorem driveLines_pattern (d c l : Bool) : (driveLines d c l s).pattern = s.pattern := rfl
@[simp] theorem driveLines_st (d c l : Bool) : (driveLines d c l s).st = s.st := rfl
@[simp] theorem driveLines_opr (d c l : Bool) : (driveLines d c l s).opr = s.opr := rfl
@[simp] theorem driveLines_didx (d c l : Bool) : (driveLines d c l s).didx = s.didx := rfl
@[simp] theorem driveLines_upc (d c l : Bool) : (driveLines d c l s).upc = s.upc := rfl
@[simp] theorem driveLines_dwellcnt (d c l : Bool) : (driveLines d c l s).dwellcnt = s.dwellcnt := rfl
@[simp] theorem driveLines_data (d c l : Bool) : (driveLines d c l s).data = d := rfl
@[simp] theorem driveLines_clk (d c l : Bool) : (driveLines d c l s).clk = c := rfl
@[simp] theorem driveLines_latch (d c l : Bool) : (driveLines d c l s).latch = l := rfl
@[simp] theorem driveLines_status (d c l : Bool) : (driveLines d c l s).status = s.status := rfl
@[simp] theorem driveLines_envSr (d c l : Bool) : (driveLines d c l s).envSr = if !s.clk && c then shiftIn s.envSr d else s.envSr := rfl
@[simp] theorem driveLines_envOut (d c l : Bool) : (driveLines d c l s).envOut = if !s.latch && l then s.envSr else s.envOut := rfl
@[simp] theorem driveLines_haz1 (d c l : Bool) : (driveLines d c l s).haz1 = s.haz1 := rfl
@[simp] theorem driveLines_trace (d c l : Bool) : (driveLines d c l s).trace = s.trace := rfl
@[simp] theorem driveLines_rspLog (d c l : Bool) : (driveLines d c l s).rspLog = s.rspLog := rfl
@[simp] theorem driveLines_rsp (d c l : Bool) : (driveLines d c l s).rsp = s.rsp := rfl
@[simp] theorem driveLines_stepNo (d c l : Bool) : (driveLines d c l s).stepNo = s.stepNo := rfl
@[simp] theorem driveLines_inputs (d c l : Bool) : (driveLines d c l s).inputs = s.inputs := rfl
@[simp] theorem driveLines_cfg (d c l : Bool) : (driveLines d c l s).cfg = s.cfg := rfl

/-! ### `assignPin` -/

@[simp] theorem assignPin_val (p : Pin) (b : Bool) : (assignPin p b s).val = s.val := by cases p <;> rfl
@[simp] theorem assignPin_dpen (p : Pin) (b : Bool) : (assignPin p b s).dpen = s.dpen := by cases p <;> rfl
@[simp] theorem assignPin_dpidx (p : Pin) (b : Bool) : (assignPin p b s).dpidx = s.dpidx := by cases p <;> rfl
@[simp] theorem assignPin_frame (p : Pin) (b : Bool) : (assignPin p b s).frame = s.frame := by cases p <;> rfl
@[simp] theorem assignPin_pattern (p : Pin) (b : Bool) : (assignPin p b s).pattern = s.pattern := by cases p <;> rfl
@[simp] theorem assignPin_st (p : Pin) (b : Bool) : (assignPin p b s).st = s.st := by cases p <;> rfl
@[simp] theorem assignPin_opr (p : Pin) (b : Bool) : (assignPin p b s).opr = s.opr := by cases p <;> rfl
@[simp] theorem assignPin_didx (p : Pin) (b : Bool) : (assignPin p b s).didx = s.didx := by cases p <;> rfl
@[simp] theorem assignPin_upc (p : Pin) (b : Bool) : (assignPin p b s).upc = s.upc := by cases p <;> rfl
@[simp] theorem assignPin_dwellcnt (p : Pin) (b : Bool) : (assignPin p b s).dwellcnt = s.dwellcnt := by cases p <;> rfl
@[simp] theorem assignPin_status (p : Pin) (b : Bool) : (assignPin p b s).status = s.status := by cases p <;> rfl
@[simp] theorem assignPin_haz1 (p : Pin) (b : Bool) : (assignPin p b s).haz1 = s.haz1 := by cases p <;> rfl
@[simp] theorem assignPin_trace (p : Pin) (b : Bool) : (assignPin p b s).trace = s.trace ++ [⟨p, b⟩] := by cases p <;> rfl
@[simp] theorem assignPin_rspLog (p : Pin) (b : Bool) : (assignPin p b s).rspLog = s.rspLog := by cases p <;> rfl
@[simp] theorem assignPin_rsp (p : Pin) (b : Bool) : (assignPin p b s).rsp = s.rsp := by cases p <;> rfl
@[simp] theorem assignPin_stepNo (p : Pin) (b : Bool) : (assignPin p b s).stepNo = s.stepNo := by cases p <;> rfl
@[simp] theorem assignPin_inputs (p : Pin) (b : Bool) : (assignPin p b s).inputs = s.inputs := by cases p <;> rfl
@[simp] theorem assignPin_cfg (p : Pin) (b : Bool) : (assignPin p b s).cfg = s.cfg := by cases p <;> rfl
@[simp] theorem assignPin_data_data (b : Bool) : (assignPin .data b s).data = b := rfl
@[simp] theorem assignPin_data_clk (b : Bool) : (assignPin .data b s).clk = s.clk := rfl
@[simp] theorem assignPin_data_latch (b : Bool) : (assignPin .data b s).latch = s.latch := rfl
@[simp] theorem assignPin_data_envSr (b : Bool) : (assignPin .data b s).envSr = s.envSr := by simp [assignPin]
@[simp] theorem assignPin_data_envOut (b : Bool) : (assignPin .data b s).envOut = s.envOut := by simp [assignPin]
@[simp] theorem assignPin_clk_data (b : Bool) : (assignPin .clk b s).data = s.data := rfl
@[simp] theorem assignPin_clk_clk (b : Bool) : (assignPin .clk b s).clk = b := rfl
@[simp] theorem assignPin_clk_latch (b : Bool) : (assignPin .clk b s).latch = s.latch := rfl
@[simp] theorem assignPin_clk_envSr (b : Bool) : (assignPin .clk b s).envSr = if !s.clk && b then shiftIn s.envSr s.data else s.envSr := rfl
@[simp] theorem assignPin_clk_envOut (b : Bool) : (assignPin .clk b s).envOut = s.envOut := by simp [assignPin]
@[simp] theorem assignPin_latch_data (b : Bool) : (assignPin .latch b s).data = s.data := rfl
@[simp] theorem assignPin_latch_clk (b : Bool) : (assignPin .latch b s).clk = s.clk := rfl
@[simp] theorem assignPin_latch_latch (b : Bool) : (assignPin .latch b s).latch = b := rfl
@[simp] theorem assignPin_latch_envSr (b : Bool) : (assignPin .latch b s).envSr = s.envSr := by simp [assignPin]
@[simp] theorem assignPin_latch_envOut (b : Bool) : (assignPin .latch b s).envOut = if !s.latch && b then s.envSr else s.envOut := rfl

/-! ### `respond` -/

@[simp] theorem respond_val (c : Status) (p : Byte) : (respond c p s).val = s.val := rfl
@[simp] theorem respond_dpen (c : Status) (p : Byte) : (respond c p s).dpen = s.dpen := rfl
@[simp] theorem respond_dpidx (c : Status) (p : Byte) : (respond c p s).dpidx = s.dpidx := rfl
@[simp] theorem respond_frame (c : Status) (p : Byte) : (respond c p s).frame = s.frame := rfl
@[simp] theorem respond_pattern (c : Status) (p : Byte) : (respond c p s).pattern = s.pattern := rfl
@[simp] theorem respond_st (c : Status) (p : Byte) : (respond c p s).st = s.st := rfl
@[simp] theorem respond_opr (c : Status) (p : Byte) : (respond c p s).opr = s.opr := rfl
@[simp] theorem respond_didx (c : Status) (p : Byte) : (respond c p s).didx = s.didx := rfl
@[simp] theorem respond_upc (c : Status) (p : Byte) : (respond c p s).upc = s.upc := rfl
@[simp] theorem respond_dwellcnt (c : Status) (p : Byte) : (respond c p s).dwellcnt = s.dwellcnt := rfl
@[simp] theorem respond_data (c : Status) (p : Byte) : (respond c p s).data = s.data := rfl
@[simp] theorem respond_clk (c : Status) (p : Byte) : (respond c p s).clk = s.clk := rfl
@[simp] theorem respond_latch (c : Status) (p : Byte) : (respond c p s).latch = s.latch := rfl
@[simp] theorem respond_status (c : Status) (p : Byte) : (respond c p s).status = c := rfl
@[simp] theorem respond_envSr (c : Status) (p : Byte) : (respond c p s).envSr = s.envSr := rfl
@[simp] theorem respond_envOut (c : Status) (p : Byte) : (respond c p s).envOut = s.envOut := rfl
@[simp] theorem respond_haz1 (c : Status) (p : Byte) : (respond c p s).haz1 = s.haz1 := rfl
@[simp] theorem respond_trace (c : Status) (p : Byte) : (respond c p s).trace = s.trace := rfl
@[simp] theorem respond_rspLog (c : Status) (p : Byte) : (respond c p s).rspLog = s.rspLog ++ [⟨s.stepNo, ⟨c, p⟩⟩] := rfl
@[simp] theorem respond_rsp (c : Status) (p : Byte) : (respond c p s).rsp = some ⟨c, p⟩ := rfl
@[simp] theorem respond_stepNo (c : Status) (p : Byte) : (respond c p s).stepNo = s.stepNo := rfl
@[simp] theorem respond_inputs (c : Status) (p : Byte) : (respond c p s).inputs = s.inputs := rfl
@[simp] theorem respond_cfg (c : Status) (p : Byte) : (respond c p s).cfg = s.cfg := rfl

/-! ### `done` -/

@[simp] theorem done_val (c : Status) : (done c s).val = s.val := rfl
@[simp] theorem done_dpen (c : Status) : (done c s).dpen = s.dpen := rfl
@[simp] theorem done_dpidx (c : Status) : (done c s).dpidx = s.dpidx := rfl
@[simp] theorem done_frame (c : Status) : (done c s).frame = s.frame := rfl
@[simp] theorem done_pattern (c : Status) : (done c s).pattern = s.pattern := rfl
@[simp] theorem done_st (c : Status) : (done c s).st = .idle := rfl
@[simp] theorem done_opr (c : Status) : (done c s).opr = s.opr := rfl
@[simp] theorem done_didx (c : Status) : (done c s).didx = s.didx := rfl
@[simp] theorem done_upc (c : Status) : (done c s).upc = s.upc := rfl
@[simp] theorem done_dwellcnt (c : Status) : (done c s).dwellcnt = s.dwellcnt := rfl
@[simp] theorem done_data (c : Status) : (done c s).data = s.data := rfl
@[simp] theorem done_clk (c : Status) : (done c s).clk = s.clk := rfl
@[simp] theorem done_latch (c : Status) : (done c s).latch = s.latch := rfl
@[simp] theorem done_status (c : Status) : (done c s).status = c := rfl
@[simp] theorem done_envSr (c : Status) : (done c s).envSr = s.envSr := rfl
@[simp] theorem done_envOut (c : Status) : (done c s).envOut = s.envOut := rfl
@[simp] theorem done_haz1 (c : Status) : (done c s).haz1 = s.haz1 := rfl
@[simp] theorem done_trace (c : Status) : (done c s).trace = s.trace := rfl
@[simp] theorem done_rspLog (c : Status) : (done c s).rspLog = s.rspLog ++ [⟨s.stepNo, ⟨c, s.pattern⟩⟩] := rfl
@[simp] theorem done_rsp (c : Status) : (done c s).rsp = some ⟨c, s.pattern⟩ := rfl
@[simp] theorem done_stepNo (c : Status) : (done c s).stepNo = s.stepNo := rfl
@[simp] theorem done_inputs (c : Status) : (done c s).inputs = s.inputs := rfl
@[simp] theorem done_cfg (c : Status) : (done c s).cfg = s.cfg := rfl

/-! ### `raise` -/

@[simp] theorem raise_eq (r : Rejection) : raise r s = done r.status s := rfl

/-! ### `resetBlock`: it makes no rising edge, so the external register keeps its contents -/

@[simp] theorem resetBlock_val : (resetBlock s).val = 0x0000 := rfl
@[simp] theorem resetBlock_dpen : (resetBlock s).dpen = false := rfl
@[simp] theorem resetBlock_dpidx : (resetBlock s).dpidx = 0 := rfl
@[simp] theorem resetBlock_frame : (resetBlock s).frame = 0x0000 := rfl
@[simp] theorem resetBlock_pattern : (resetBlock s).pattern = 0xFF := rfl
@[simp] theorem resetBlock_st : (resetBlock s).st = .idle := rfl
@[simp] theorem resetBlock_opr : (resetBlock s).opr = .none := rfl
@[simp] theorem resetBlock_didx : (resetBlock s).didx = 0 := rfl
@[simp] theorem resetBlock_upc : (resetBlock s).upc = 0 := rfl
@[simp] theorem resetBlock_dwellcnt : (resetBlock s).dwellcnt = 0 := rfl
@[simp] theorem resetBlock_data : (resetBlock s).data = false := rfl
@[simp] theorem resetBlock_clk : (resetBlock s).clk = false := rfl
@[simp] theorem resetBlock_latch : (resetBlock s).latch = false := rfl
@[simp] theorem resetBlock_status : (resetBlock s).status = .ok := rfl
@[simp] theorem resetBlock_envSr : (resetBlock s).envSr = s.envSr := by simp [resetBlock]
@[simp] theorem resetBlock_envOut : (resetBlock s).envOut = s.envOut := by simp [resetBlock]
@[simp] theorem resetBlock_haz1 : (resetBlock s).haz1 = s.haz1 := rfl
@[simp] theorem resetBlock_trace : (resetBlock s).trace = [] := rfl
@[simp] theorem resetBlock_rspLog : (resetBlock s).rspLog = [] := rfl
@[simp] theorem resetBlock_rsp : (resetBlock s).rsp = none := rfl
@[simp] theorem resetBlock_stepNo : (resetBlock s).stepNo = 0 := rfl
@[simp] theorem resetBlock_inputs : (resetBlock s).inputs = s.inputs := rfl
@[simp] theorem resetBlock_cfg : (resetBlock s).cfg = s.cfg := rfl

/-! ### `beginStep` -/

@[simp] theorem beginStep_val : (beginStep s).val = s.val := rfl
@[simp] theorem beginStep_dpen : (beginStep s).dpen = s.dpen := rfl
@[simp] theorem beginStep_dpidx : (beginStep s).dpidx = s.dpidx := rfl
@[simp] theorem beginStep_frame : (beginStep s).frame = s.frame := rfl
@[simp] theorem beginStep_pattern : (beginStep s).pattern = s.pattern := rfl
@[simp] theorem beginStep_st : (beginStep s).st = s.st := rfl
@[simp] theorem beginStep_opr : (beginStep s).opr = s.opr := rfl
@[simp] theorem beginStep_didx : (beginStep s).didx = s.didx := rfl
@[simp] theorem beginStep_upc : (beginStep s).upc = s.upc := rfl
@[simp] theorem beginStep_dwellcnt : (beginStep s).dwellcnt = s.dwellcnt := rfl
@[simp] theorem beginStep_data : (beginStep s).data = s.data := rfl
@[simp] theorem beginStep_clk : (beginStep s).clk = s.clk := rfl
@[simp] theorem beginStep_latch : (beginStep s).latch = s.latch := rfl
@[simp] theorem beginStep_status : (beginStep s).status = s.status := rfl
@[simp] theorem beginStep_envSr : (beginStep s).envSr = s.envSr := rfl
@[simp] theorem beginStep_envOut : (beginStep s).envOut = s.envOut := rfl
@[simp] theorem beginStep_haz1 : (beginStep s).haz1 = s.haz1 := rfl
@[simp] theorem beginStep_trace : (beginStep s).trace = s.trace := rfl
@[simp] theorem beginStep_rspLog : (beginStep s).rspLog = s.rspLog := rfl
@[simp] theorem beginStep_rsp : (beginStep s).rsp = none := rfl
@[simp] theorem beginStep_stepNo : (beginStep s).stepNo = s.stepNo + 1 := rfl
@[simp] theorem beginStep_inputs : (beginStep s).inputs = s.inputs.tail := rfl
@[simp] theorem beginStep_cfg : (beginStep s).cfg = s.cfg := rfl

/-! ### `offerNext` -/

@[simp] theorem offerNext_val (w : CmdWord) : (offerNext w s).val = s.val := rfl
@[simp] theorem offerNext_dpen (w : CmdWord) : (offerNext w s).dpen = s.dpen := rfl
@[simp] theorem offerNext_dpidx (w : CmdWord) : (offerNext w s).dpidx = s.dpidx := rfl
@[simp] theorem offerNext_frame (w : CmdWord) : (offerNext w s).frame = s.frame := rfl
@[simp] theorem offerNext_pattern (w : CmdWord) : (offerNext w s).pattern = s.pattern := rfl
@[simp] theorem offerNext_st (w : CmdWord) : (offerNext w s).st = .idle := rfl
@[simp] theorem offerNext_opr (w : CmdWord) : (offerNext w s).opr = s.opr := rfl
@[simp] theorem offerNext_didx (w : CmdWord) : (offerNext w s).didx = s.didx := rfl
@[simp] theorem offerNext_upc (w : CmdWord) : (offerNext w s).upc = s.upc := rfl
@[simp] theorem offerNext_dwellcnt (w : CmdWord) : (offerNext w s).dwellcnt = s.dwellcnt := rfl
@[simp] theorem offerNext_data (w : CmdWord) : (offerNext w s).data = s.data := rfl
@[simp] theorem offerNext_clk (w : CmdWord) : (offerNext w s).clk = s.clk := rfl
@[simp] theorem offerNext_latch (w : CmdWord) : (offerNext w s).latch = s.latch := rfl
@[simp] theorem offerNext_status (w : CmdWord) : (offerNext w s).status = s.status := rfl
@[simp] theorem offerNext_envSr (w : CmdWord) : (offerNext w s).envSr = s.envSr := rfl
@[simp] theorem offerNext_envOut (w : CmdWord) : (offerNext w s).envOut = s.envOut := rfl
@[simp] theorem offerNext_haz1 (w : CmdWord) : (offerNext w s).haz1 = s.haz1 := rfl
@[simp] theorem offerNext_trace (w : CmdWord) : (offerNext w s).trace = s.trace := rfl
@[simp] theorem offerNext_rspLog (w : CmdWord) : (offerNext w s).rspLog = s.rspLog := rfl
@[simp] theorem offerNext_rsp (w : CmdWord) : (offerNext w s).rsp = s.rsp := rfl
@[simp] theorem offerNext_stepNo (w : CmdWord) : (offerNext w s).stepNo = s.stepNo := rfl
@[simp] theorem offerNext_inputs (w : CmdWord) : (offerNext w s).inputs = PortSample.offer w :: s.inputs := rfl
@[simp] theorem offerNext_cfg (w : CmdWord) : (offerNext w s).cfg = s.cfg := rfl

@[simp] theorem offerNext_portNow (w : CmdWord) : (offerNext w s).portNow = PortSample.offer w := rfl

end Sys2Proof.Machine
end

