-- ==== Sys2Proof/Laws/Ops.lean ====
section
/-!
SUPPORT. What each shared operation and each micro-step can do, said once.
-/
namespace Sys2Proof.Machine

/-- A shift micro-step is one pin assignment, chosen by its phase (spec/41_serial_out.md R121). -/
theorem shiftUop_eq (u : Nat) (s : State) :
    shiftUop u s =
      if (u - 1) % 3 = 0 then assignPin .data (s.frame.getLsbD (15 - (u - 1) / 3)) s
      else assignPin .clk (decide ((u - 1) % 3 = 1)) s := by
  have h : (u - 1) % 3 < 3 := Nat.mod_lt _ (by decide)
  unfold shiftUop shiftPhase shiftBit
  rcases hm : (u - 1) % 3 with _ | _ | n <;> simp_all

/-- Every shift micro-step makes exactly one pin assignment. -/
theorem shiftUop_assigns (u : Nat) (s : State) : ∃ p b, shiftUop u s = assignPin p b s := by
  rw [shiftUop_eq]
  split
  · exact ⟨_, _, rfl⟩
  · exact ⟨_, _, rfl⟩

/-- Every frame micro-step makes exactly one pin assignment (spec/42_shift_register_frame.md R146). -/
theorem frameUop_assigns (u : Nat) (s : State) : ∃ p b, frameUop u s = assignPin p b s := by
  unfold frameUop
  split
  · exact ⟨_, _, rfl⟩
  · split
    · exact ⟨_, _, rfl⟩
    · exact shiftUop_assigns u s

/-- Inside a frame, the micro-steps from 1 to 48 are the shift micro-steps. -/
theorem frameUop_inner {u : Nat} (h1 : 1 ≤ u) (h2 : u ≤ 48) (s : State) : frameUop u s = shiftUop u s := by
  simp [frameUop, show u ≠ 0 by omega, show u ≠ 49 by omega]

@[simp] theorem frameUop_zero (s : State) : frameUop 0 s = assignPin .latch false s := rfl

@[simp] theorem frameUop_last (s : State) : frameUop 49 s = assignPin .latch true s := rfl

/-- A micro-step of `SEND` that is not the last. -/
theorem sendMicroStep_of_lt {s : State} (h : s.upc ≠ 24) :
    sendMicroStep s = { shiftUop s.upc.val s with upc := s.upc + 1 } := by
  simp [sendMicroStep, h]

/-- The last micro-step of `SEND` lowers the clock line and responds. -/
theorem sendMicroStep_last {s : State} (h : s.upc = 24) :
    sendMicroStep s = done .ok (assignPin .clk false s) := by
  simp [sendMicroStep, h, shiftUop_eq]

/-- A micro-step of `WRITE` that is not the last. -/
theorem writeMicroStep_of_lt {s : State} (h : s.upc ≠ 49) :
    writeMicroStep s = { frameUop s.upc.val s with upc := s.upc + 1 } := by
  simp [writeMicroStep, h]

/-- The last micro-step of `WRITE` raises the latch line and responds. -/
theorem writeMicroStep_last {s : State} (h : s.upc = 49) :
    writeMicroStep s = done .ok (assignPin .latch true s) := by
  simp [writeMicroStep, h]

/-- A micro-step of `RENDER` that is not the last of its frame. -/
theorem renderMicroStep_of_lt {s : State} (h : s.upc ≠ 49) :
    renderMicroStep s = { frameUop s.upc.val s with upc := s.upc + 1 } := by
  simp [renderMicroStep, h]

/-- The last micro-step of a frame of `RENDER` raises the latch line and starts the dwell. -/
theorem renderMicroStep_last {s : State} (h : s.upc = 49) :
    renderMicroStep s = { assignPin .latch true s with dwellcnt := s.cfg.dwellTicks, st := .dwell } := by
  simp [renderMicroStep, h]

/-- A DWELL step that is not the last of its dwell. -/
theorem dwellTick_of_ne {s : State} (h : s.dwellcnt ≠ 1) :
    dwellTick s = { s with dwellcnt := s.dwellcnt - 1 } := by
  simp [dwellTick, h]

/-- The last step of the dwell of digit 0, 1 or 2. -/
theorem dwellTick_nextDigit {s : State} (h : s.dwellcnt = 1) (hd : s.didx ≠ 3) :
    dwellTick s =
      { s with
        dwellcnt := 0
        didx := s.didx + 1
        frame := frameFor s.cfg s.val s.dpen s.dpidx (s.didx + 1)
        upc := 0
        st := .shift } := by
  simp only [dwellTick, dwellEnd, h, hd, if_true, if_false]

/-- The last step of a sweep. -/
theorem dwellTick_last {s : State} (h : s.dwellcnt = 1) (hd : s.didx = 3) :
    dwellTick s = done (renderStatus s.val) { s with dwellcnt := 0 } := by
  simp [dwellTick, dwellEnd, h, hd]

/-- A micro-step of `SEND` makes one assignment and either advances `UPC` or responds. -/
theorem sendMicroStep_cases (s : State) :
    (∃ p b, sendMicroStep s = { assignPin p b s with upc := s.upc + 1 }) ∨
    (∃ p b, sendMicroStep s = done .ok (assignPin p b s)) := by
  by_cases h : s.upc = 24
  · exact .inr ⟨_, _, sendMicroStep_last h⟩
  · obtain ⟨p, b, e⟩ := shiftUop_assigns s.upc.val s
    exact .inl ⟨p, b, by rw [sendMicroStep_of_lt h, e]⟩

/-- A micro-step of `WRITE` makes one assignment and either advances `UPC` or responds. -/
theorem writeMicroStep_cases (s : State) :
    (∃ p b, writeMicroStep s = { assignPin p b s with upc := s.upc + 1 }) ∨
    (∃ p b, writeMicroStep s = done .ok (assignPin p b s)) := by
  by_cases h : s.upc = 49
  · exact .inr ⟨_, _, writeMicroStep_last h⟩
  · obtain ⟨p, b, e⟩ := frameUop_assigns s.upc.val s
    exact .inl ⟨p, b, by rw [writeMicroStep_of_lt h, e]⟩

/-- A micro-step of `RENDER` makes one assignment and either advances `UPC` or starts the dwell. -/
theorem renderMicroStep_cases (s : State) :
    (∃ p b, renderMicroStep s = { assignPin p b s with upc := s.upc + 1 }) ∨
    renderMicroStep s = { assignPin .latch true s with dwellcnt := s.cfg.dwellTicks, st := .dwell } := by
  by_cases h : s.upc = 49
  · exact .inr (renderMicroStep_last h)
  · obtain ⟨p, b, e⟩ := frameUop_assigns s.upc.val s
    exact .inl ⟨p, b, by rw [renderMicroStep_of_lt h, e]⟩

/-! ### The meanings -/

/-- `ENC` of a digit from 0 to 9. -/
theorem execEnc_valid {digit : BitVec 4} (h : digit.toNat < 10) (dp : Bool) (s : State) :
    execEnc digit dp s =
      .next (respond .ok (encodeDigit s.cfg ⟨digit.toNat, h⟩ dp)
        { s with pattern := encodeDigit s.cfg ⟨digit.toNat, h⟩ dp }) := by
  simp [execEnc, h]

/-- `ENC` of a digit from 10 to 15. -/
theorem execEnc_invalid {digit : BitVec 4} (h : ¬ digit.toNat < 10) (dp : Bool) (s : State) :
    execEnc digit dp s = .next (raise (.invalidDigit digit) s) := by
  simp [execEnc, h]

/-- Every meaning answers a next state. -/
theorem exec_next (i : Instr) (s : State) : ∃ t, exec i s = .next t := by
  cases i with
  | enc digit dp =>
    by_cases h : digit.toNat < 10
    · exact ⟨_, execEnc_valid h dp s⟩
    · exact ⟨_, execEnc_invalid h dp s⟩
  | send byte => exact ⟨_, rfl⟩
  | latch level => exact ⟨_, rfl⟩
  | write seg dsel => exact ⟨_, rfl⟩
  | render value dpen dpidx => exact ⟨_, rfl⟩

end Sys2Proof.Machine
end

