-- ==== Sys2Proof/Laws/Step.lean ====
section
/-!
SUPPORT. What a step can do, said once: one equation per row of spec/43_display_multiplexer.md R172, and the inversion
of a step that answers a next state.
-/
namespace Sys2Proof.Machine

variable {s t : State}

/-- Under accepted parameters a step is one clock edge. -/
theorem step_of_wf (hc : s.cfg.wf) : step s = clockEdge s.portNow (beginStep s) := if_pos hc

/-- Row 1: reset. -/
theorem step_reset (hc : s.cfg.wf) (hr : s.portNow.rst = true) :
    step s = .next (resetBlock (beginStep s)) := by
  simp [step_of_wf hc, clockEdge, hr]

/-- Row 2: no command. -/
theorem step_idle (hc : s.cfg.wf) (hr : s.portNow.rst = false) (hi : s.st = .idle)
    (hv : s.portNow.cmdValid = false) : step s = .next (beginStep s) := by
  simp [step_of_wf hc, clockEdge, hr, hi, hv]

/-- Rows 3 to 9: the accept step. -/
theorem step_accept {w : CmdWord} (h : Accepts s w) : step s = accept w (beginStep s) := by
  simp [step_of_wf h.cfgWf, clockEdge, h.rst, h.idle, h.valid, h.cmd]

/-- Rows 10 and 11: a SHIFT step of `SEND`. -/
theorem step_send (hc : s.cfg.wf) (hr : s.portNow.rst = false) (hs : s.st = .shift) (ho : s.opr = .send)
    (h1 : 1 ≤ s.upc.val) (h2 : s.upc.val ≤ 24) : step s = .next (sendMicroStep (beginStep s)) := by
  simp [step_of_wf hc, clockEdge, hr, hs, shiftStep, ho, h1, h2]

/-- Rows 12 and 13: a SHIFT step of `WRITE`. -/
theorem step_write (hc : s.cfg.wf) (hr : s.portNow.rst = false) (hs : s.st = .shift) (ho : s.opr = .write) :
    step s = .next (writeMicroStep (beginStep s)) := by
  simp [step_of_wf hc, clockEdge, hr, hs, shiftStep, ho]

/-- Rows 12 and 14: a SHIFT step of `RENDER`. -/
theorem step_render (hc : s.cfg.wf) (hr : s.portNow.rst = false) (hs : s.st = .shift) (ho : s.opr = .render) :
    step s = .next (renderMicroStep (beginStep s)) := by
  simp [step_of_wf hc, clockEdge, hr, hs, shiftStep, ho]

/-- Rows 15 to 17: a DWELL step. -/
theorem step_dwell (hc : s.cfg.wf) (hr : s.portNow.rst = false) (hs : s.st = .dwell) (hn : s.dwellcnt ≠ 0) :
    step s = .next (dwellTick (beginStep s)) := by
  simp [step_of_wf hc, clockEdge, hr, hs, dwellStep, hn]

/-- What an accepted word can do. -/
theorem accept_cases {w : CmdWord} (h : accept w s = .next t) :
    (∃ e, decode w = .error e ∧ t = raise (.illegalCmd w) s) ∨
    (∃ d dp, decode w = .ok (.enc d dp) ∧ ¬ d.toNat < 10 ∧ t = raise (.invalidDigit d) s) ∨
    (∃ d dp, ∃ hd : d.toNat < 10, decode w = .ok (.enc d dp) ∧
      t = respond .ok (encodeDigit s.cfg ⟨d.toNat, hd⟩ dp)
        { s with pattern := encodeDigit s.cfg ⟨d.toNat, hd⟩ dp }) ∨
    (∃ b, decode w = .ok (.send b) ∧
      t = { s with frame := b ++ 0#8, opr := .send, upc := 1, st := .shift, haz1 := s.haz1 || s.latch }) ∨
    (∃ l, decode w = .ok (.latch l) ∧ t = respond .ok s.pattern (assignPin .latch l s)) ∨
    (∃ g m, decode w = .ok (.write g m) ∧
      t = { s with frame := g ++ m, opr := .write, upc := 0, st := .shift }) ∨
    (∃ v en ix, decode w = .ok (.render v en ix) ∧
      t = { s with
            val := v, dpen := en, dpidx := ix, didx := 0, frame := frameFor s.cfg v en ix 0
            opr := .render, upc := 0, st := .shift }) := by
  unfold accept at h
  split at h
  · rename_i i hw
    cases i with
    | enc d dp =>
      by_cases hd : d.toNat < 10
      · exact .inr (.inr (.inl ⟨d, dp, hd, hw, by simpa [exec, execEnc_valid hd] using h.symm⟩))
      · exact .inr (.inl ⟨d, dp, hw, hd, by simpa [exec, execEnc_invalid hd] using h.symm⟩)
    | send b => exact .inr (.inr (.inr (.inl ⟨b, hw, by simpa [exec, execSend] using h.symm⟩)))
    | latch l => exact .inr (.inr (.inr (.inr (.inl ⟨l, hw, by simpa [exec, execLatch] using h.symm⟩))))
    | write g m =>
      exact .inr (.inr (.inr (.inr (.inr (.inl ⟨g, m, hw, by simpa [exec, execWrite] using h.symm⟩)))))
    | render v en ix =>
      exact .inr (.inr (.inr (.inr (.inr (.inr
        ⟨v, en, ix, hw, by simpa [exec, execRender] using h.symm⟩)))))
  · rename_i e hw
    exact .inl ⟨e, hw, by simpa using h.symm⟩

/-- What a step can do when it answers a next state. -/
theorem step_cases (h : step s = .next t) :
    s.cfg.wf ∧
    ((s.portNow.rst = true ∧ t = resetBlock (beginStep s)) ∨
     (s.portNow.rst = false ∧ s.st = .idle ∧ s.portNow.cmdValid = false ∧ t = beginStep s) ∨
     (s.portNow.rst = false ∧ s.st = .idle ∧ s.portNow.cmdValid = true ∧
        accept s.portNow.cmd (beginStep s) = .next t) ∨
     (s.portNow.rst = false ∧ s.st = .shift ∧ s.opr = .send ∧ 1 ≤ s.upc.val ∧ s.upc.val ≤ 24 ∧
        t = sendMicroStep (beginStep s)) ∨
     (s.portNow.rst = false ∧ s.st = .shift ∧ s.opr = .write ∧ t = writeMicroStep (beginStep s)) ∨
     (s.portNow.rst = false ∧ s.st = .shift ∧ s.opr = .render ∧ t = renderMicroStep (beginStep s)) ∨
     (s.portNow.rst = false ∧ s.st = .dwell ∧ s.dwellcnt ≠ 0 ∧ t = dwellTick (beginStep s))) := by
  by_cases hc : s.cfg.wf
  swap
  · simp [step, stepOnce, hc] at h
  refine ⟨hc, ?_⟩
  cases hr : s.portNow.rst with
  | true => exact .inl ⟨rfl, by simpa [step_reset hc hr] using h.symm⟩
  | false =>
    refine .inr ?_
    rw [step_of_wf hc] at h
    cases hs : s.st with
    | idle =>
      cases hv : s.portNow.cmdValid with
      | false => exact .inl ⟨rfl, rfl, rfl, by simpa [clockEdge, hr, hs, hv] using h.symm⟩
      | true => exact .inr (.inl ⟨rfl, rfl, rfl, by simpa [clockEdge, hr, hs, hv] using h⟩)
    | shift =>
      cases ho : s.opr with
      | none => simp [clockEdge, hr, hs, shiftStep, ho] at h
      | send =>
        by_cases hu : 1 ≤ s.upc.val ∧ s.upc.val ≤ 24
        · refine .inr (.inr (.inl ⟨rfl, rfl, rfl, hu.1, hu.2, ?_⟩))
          simpa [clockEdge, hr, hs, shiftStep, ho, hu.1, hu.2] using h.symm
        · simp only [clockEdge, hr, hs, shiftStep, ho, beginStep_st, beginStep_opr, beginStep_upc, hu] at h
          simp at h
      | write =>
        exact .inr (.inr (.inr (.inl ⟨rfl, rfl, rfl, by simpa [clockEdge, hr, hs, shiftStep, ho] using h.symm⟩)))
      | render =>
        exact .inr (.inr (.inr (.inr (.inl
          ⟨rfl, rfl, rfl, by simpa [clockEdge, hr, hs, shiftStep, ho] using h.symm⟩))))
    | dwell =>
      by_cases hn : s.dwellcnt = 0
      · simp [clockEdge, hr, hs, dwellStep, hn] at h
      · exact .inr (.inr (.inr (.inr (.inr
          ⟨rfl, rfl, hn, by simpa [clockEdge, hr, hs, dwellStep, hn] using h.symm⟩))))

/-- What a step can do when it answers a next state, with the micro-steps in the form of their pin assignment. -/
theorem step_forms (h : step s = .next t) :
    s.cfg.wf ∧
    ((s.portNow.rst = true ∧ t = resetBlock (beginStep s)) ∨
     (s.portNow.rst = false ∧ s.st = .idle ∧ s.portNow.cmdValid = false ∧ t = beginStep s) ∨
     (s.portNow.rst = false ∧ s.st = .idle ∧ s.portNow.cmdValid = true ∧
        accept s.portNow.cmd (beginStep s) = .next t) ∨
     (s.portNow.rst = false ∧ s.st = .shift ∧ (s.opr = .send ∨ s.opr = .write ∨ s.opr = .render) ∧
        ∃ p b, t = { assignPin p b (beginStep s) with upc := s.upc + 1 }) ∨
     (s.portNow.rst = false ∧ s.st = .shift ∧ (s.opr = .send ∨ s.opr = .write) ∧
        ∃ p b, t = done .ok (assignPin p b (beginStep s))) ∨
     (s.portNow.rst = false ∧ s.st = .shift ∧ s.opr = .render ∧
        t = { assignPin .latch true (beginStep s) with dwellcnt := s.cfg.dwellTicks, st := .dwell }) ∨
     (s.portNow.rst = false ∧ s.st = .dwell ∧ s.dwellcnt ≠ 0 ∧ s.dwellcnt ≠ 1 ∧
        t = { beginStep s with dwellcnt := s.dwellcnt - 1 }) ∨
     (s.portNow.rst = false ∧ s.st = .dwell ∧ s.dwellcnt = 1 ∧ s.didx ≠ 3 ∧
        t = { beginStep s with
              dwellcnt := 0
              didx := s.didx + 1
              frame := frameFor s.cfg s.val s.dpen s.dpidx (s.didx + 1)
              upc := 0
              st := .shift }) ∨
     (s.portNow.rst = false ∧ s.st = .dwell ∧ s.dwellcnt = 1 ∧ s.didx = 3 ∧
        t = done (renderStatus s.val) { beginStep s with dwellcnt := 0 })) := by
  obtain ⟨hc, h⟩ := step_cases h
  refine ⟨hc, ?_⟩
  rcases h with h | h | h | ⟨hr, hs, ho, -, -, rfl⟩ | ⟨hr, hs, ho, rfl⟩ | ⟨hr, hs, ho, rfl⟩ | ⟨hr, hs, hn, rfl⟩
  · exact .inl h
  · exact .inr (.inl h)
  · exact .inr (.inr (.inl h))
  · rcases sendMicroStep_cases (beginStep s) with e | e
    · exact .inr (.inr (.inr (.inl ⟨hr, hs, .inl ho, e⟩)))
    · exact .inr (.inr (.inr (.inr (.inl ⟨hr, hs, .inl ho, e⟩))))
  · rcases writeMicroStep_cases (beginStep s) with e | e
    · exact .inr (.inr (.inr (.inl ⟨hr, hs, .inr (.inl ho), e⟩)))
    · exact .inr (.inr (.inr (.inr (.inl ⟨hr, hs, .inr ho, e⟩))))
  · rcases renderMicroStep_cases (beginStep s) with e | e
    · exact .inr (.inr (.inr (.inl ⟨hr, hs, .inr (.inr ho), e⟩)))
    · exact .inr (.inr (.inr (.inr (.inr (.inl ⟨hr, hs, ho, e⟩)))))
  · refine .inr (.inr (.inr (.inr (.inr (.inr ?_)))))
    by_cases h1 : s.dwellcnt = 1
    · by_cases hd : s.didx = 3
      · exact .inr (.inr ⟨hr, hs, h1, hd, dwellTick_last h1 hd⟩)
      · exact .inr (.inl ⟨hr, hs, h1, hd, dwellTick_nextDigit h1 hd⟩)
    · exact .inl ⟨hr, hs, hn, h1, dwellTick_of_ne h1⟩

/-! ### The lines of another state -/

@[simp] theorem withLinesOf_val (s t : State) : (s.withLinesOf t).val = s.val := rfl
@[simp] theorem withLinesOf_dpen (s t : State) : (s.withLinesOf t).dpen = s.dpen := rfl
@[simp] theorem withLinesOf_dpidx (s t : State) : (s.withLinesOf t).dpidx = s.dpidx := rfl
@[simp] theorem withLinesOf_frame (s t : State) : (s.withLinesOf t).frame = s.frame := rfl
@[simp] theorem withLinesOf_pattern (s t : State) : (s.withLinesOf t).pattern = s.pattern := rfl
@[simp] theorem withLinesOf_st (s t : State) : (s.withLinesOf t).st = s.st := rfl
@[simp] theorem withLinesOf_opr (s t : State) : (s.withLinesOf t).opr = s.opr := rfl
@[simp] theorem withLinesOf_didx (s t : State) : (s.withLinesOf t).didx = s.didx := rfl
@[simp] theorem withLinesOf_upc (s t : State) : (s.withLinesOf t).upc = s.upc := rfl
@[simp] theorem withLinesOf_dwellcnt (s t : State) : (s.withLinesOf t).dwellcnt = s.dwellcnt := rfl
@[simp] theorem withLinesOf_status (s t : State) : (s.withLinesOf t).status = s.status := rfl
@[simp] theorem withLinesOf_haz1 (s t : State) : (s.withLinesOf t).haz1 = s.haz1 := rfl
@[simp] theorem withLinesOf_rspLog (s t : State) : (s.withLinesOf t).rspLog = s.rspLog := rfl
@[simp] theorem withLinesOf_cfg (s t : State) : (s.withLinesOf t).cfg = s.cfg := rfl
@[simp] theorem withLinesOf_data (s t : State) : (s.withLinesOf t).data = t.data := rfl
@[simp] theorem withLinesOf_clk (s t : State) : (s.withLinesOf t).clk = t.clk := rfl
@[simp] theorem withLinesOf_latch (s t : State) : (s.withLinesOf t).latch = t.latch := rfl
@[simp] theorem withLinesOf_envSr (s t : State) : (s.withLinesOf t).envSr = t.envSr := rfl
@[simp] theorem withLinesOf_envOut (s t : State) : (s.withLinesOf t).envOut = t.envOut := rfl
@[simp] theorem withLinesOf_trace (s t : State) : (s.withLinesOf t).trace = t.trace := rfl
@[simp] theorem withLinesOf_rsp (s t : State) : (s.withLinesOf t).rsp = none := rfl
@[simp] theorem withLinesOf_stepNo (s t : State) : (s.withLinesOf t).stepNo = s.stepNo + 1 := rfl
@[simp] theorem withLinesOf_inputs (s t : State) : (s.withLinesOf t).inputs = s.inputs.tail := rfl

/-! ### Runs -/

@[simp] theorem run_zero (s : State) : run 0 s = .next s := rfl

/-- A run begins with a step. -/
theorem run_succ_of_step (k : Nat) (h : step s = .next t) : run (k + 1) s = run k t := by
  simp [run, h]

/-- A run is the run of its first part followed by the run of the rest. -/
theorem run_add {m n : Nat} (h : run m s = .next t) : run (m + n) s = run n t := by
  induction m generalizing s with
  | zero =>
    obtain rfl : s = t := by simpa using h
    simp
  | succ m ih =>
    rw [Nat.succ_add]
    simp only [run] at h ⊢
    split at h
    · exact ih h
    · exact absurd h (by simp)
    · exact absurd h (by simp)

/-- The inversion of a run that answers a next state. -/
theorem run_succ_cases {k : Nat} (h : run (k + 1) s = .next t) : ∃ u, step s = .next u ∧ run k u = .next t := by
  simp only [run] at h
  split at h
  · exact ⟨_, by assumption, h⟩
  · exact absurd h (by simp)
  · exact absurd h (by simp)

/-- The induction of every safety claim: what holds at the start and is kept by every step holds at the end of a run. -/
theorem run_induction {P : State → Prop} (hstep : ∀ a b, P a → step a = .next b → P b) {k : Nat}
    (h0 : P s) (h : run k s = .next t) : P t := by
  induction k generalizing s with
  | zero =>
    obtain rfl : s = t := by simpa using h
    exact h0
  | succ k ih =>
    obtain ⟨u, hu, hk⟩ := run_succ_cases h
    exact ih (hstep _ _ h0 hu) hk

/-- The next step is not a reset when no reset comes within some steps. -/
theorem NoReset.portNow {k : Nat} (h : NoReset (k + 1) s) : s.portNow.rst = false := by
  unfold State.portNow
  cases hi : s.inputs with
  | nil => rfl
  | cons p ps => exact h p (by simp [hi])

/-- What holds at the start, is kept by every step and lets no step stop, holds after any number of steps. -/
theorem run_total {P : State → Prop} (hstep : ∀ a, P a → ∃ b, step a = .next b ∧ P b) (k : Nat) (h0 : P s) :
    ∃ t, run k s = .next t ∧ P t := by
  induction k generalizing s with
  | zero => exact ⟨s, rfl, h0⟩
  | succ k ih =>
    obtain ⟨u, hu, hp⟩ := hstep s h0
    rw [run_succ_of_step k hu]
    exact ih hp

/-- No reset comes within a shorter stretch either. -/
theorem NoReset.mono {j k : Nat} (hjk : j ≤ k) (h : NoReset k s) : NoReset j s :=
  fun p hp => h p ((List.take_subset_take_left _ hjk) hp)

end Sys2Proof.Machine
end

