-- ==== Sys2Proof/Laws/Runs.lean ====
section
/-!
SUPPORT. Runs of several micro-steps: the three steps of one bit on the wire, and the bits of a byte.
-/
namespace Sys2Proof.Machine

variable {s t : State}

/-- The micro-step counter below 49 advances by one without wrapping. -/
theorem upc_succ_val {u : Fin 50} (h : u.val < 49) : (u + 1).val = u.val + 1 := by
  rw [Fin.val_add, Fin.val_one]
  exact Nat.mod_eq_of_lt (by omega)

/-- Three more micro-steps below 49. -/
theorem upc_add_three {u : Fin 50} (h : u.val + 2 < 49) :
    (u + 1 + 1 + 1).val = u.val + 3 ∧ (u + 1 + 1).val = u.val + 2 ∧ (u + 1).val = u.val + 1 := by
  have h1 := upc_succ_val (u := u) (by omega)
  have h2 := upc_succ_val (u := u + 1) (by omega)
  have h3 := upc_succ_val (u := u + 1 + 1) (by omega)
  omega

/-- A micro-step that makes one assignment and advances `UPC`, as the state after its step. -/
def pinStep (p : Pin) (b : Bool) (s : State) : State := { assignPin p b (beginStep s) with upc := s.upc + 1 }

@[simp] theorem pinStep_val (p : Pin) (b : Bool) : (pinStep p b s).val = s.val := by simp [pinStep]
@[simp] theorem pinStep_dpen (p : Pin) (b : Bool) : (pinStep p b s).dpen = s.dpen := by simp [pinStep]
@[simp] theorem pinStep_dpidx (p : Pin) (b : Bool) : (pinStep p b s).dpidx = s.dpidx := by simp [pinStep]
@[simp] theorem pinStep_frame (p : Pin) (b : Bool) : (pinStep p b s).frame = s.frame := by simp [pinStep]
@[simp] theorem pinStep_pattern (p : Pin) (b : Bool) : (pinStep p b s).pattern = s.pattern := by simp [pinStep]
@[simp] theorem pinStep_st (p : Pin) (b : Bool) : (pinStep p b s).st = s.st := by simp [pinStep]
@[simp] theorem pinStep_opr (p : Pin) (b : Bool) : (pinStep p b s).opr = s.opr := by simp [pinStep]
@[simp] theorem pinStep_didx (p : Pin) (b : Bool) : (pinStep p b s).didx = s.didx := by simp [pinStep]
@[simp] theorem pinStep_upc (p : Pin) (b : Bool) : (pinStep p b s).upc = s.upc + 1 := by simp [pinStep]
@[simp] theorem pinStep_dwellcnt (p : Pin) (b : Bool) : (pinStep p b s).dwellcnt = s.dwellcnt := by simp [pinStep]
@[simp] theorem pinStep_status (p : Pin) (b : Bool) : (pinStep p b s).status = s.status := by simp [pinStep]
@[simp] theorem pinStep_haz1 (p : Pin) (b : Bool) : (pinStep p b s).haz1 = s.haz1 := by simp [pinStep]
@[simp] theorem pinStep_trace (p : Pin) (b : Bool) : (pinStep p b s).trace = s.trace ++ [⟨p, b⟩] := by simp [pinStep]
@[simp] theorem pinStep_rspLog (p : Pin) (b : Bool) : (pinStep p b s).rspLog = s.rspLog := by simp [pinStep]
@[simp] theorem pinStep_rsp (p : Pin) (b : Bool) : (pinStep p b s).rsp = none := by simp [pinStep]
@[simp] theorem pinStep_stepNo (p : Pin) (b : Bool) : (pinStep p b s).stepNo = s.stepNo + 1 := by simp [pinStep]
@[simp] theorem pinStep_inputs (p : Pin) (b : Bool) : (pinStep p b s).inputs = s.inputs.tail := by simp [pinStep]
@[simp] theorem pinStep_cfg (p : Pin) (b : Bool) : (pinStep p b s).cfg = s.cfg := by simp [pinStep]
@[simp] theorem pinStep_data_data (b : Bool) : (pinStep .data b s).data = b := by simp [pinStep]
@[simp] theorem pinStep_data_clk (b : Bool) : (pinStep .data b s).clk = s.clk := by simp [pinStep]
@[simp] theorem pinStep_data_latch (b : Bool) : (pinStep .data b s).latch = s.latch := by simp [pinStep]
@[simp] theorem pinStep_data_envSr (b : Bool) : (pinStep .data b s).envSr = s.envSr := by simp [pinStep]
@[simp] theorem pinStep_data_envOut (b : Bool) : (pinStep .data b s).envOut = s.envOut := by simp [pinStep]
@[simp] theorem pinStep_clk_data (b : Bool) : (pinStep .clk b s).data = s.data := by simp [pinStep]
@[simp] theorem pinStep_clk_clk (b : Bool) : (pinStep .clk b s).clk = b := by simp [pinStep]
@[simp] theorem pinStep_clk_latch (b : Bool) : (pinStep .clk b s).latch = s.latch := by simp [pinStep]
@[simp] theorem pinStep_clk_envSr (b : Bool) : (pinStep .clk b s).envSr = if !s.clk && b then shiftIn s.envSr s.data else s.envSr := by simp [pinStep]
@[simp] theorem pinStep_clk_envOut (b : Bool) : (pinStep .clk b s).envOut = s.envOut := by simp [pinStep]
@[simp] theorem pinStep_latch_data (b : Bool) : (pinStep .latch b s).data = s.data := by simp [pinStep]
@[simp] theorem pinStep_latch_clk (b : Bool) : (pinStep .latch b s).clk = s.clk := by simp [pinStep]
@[simp] theorem pinStep_latch_latch (b : Bool) : (pinStep .latch b s).latch = b := by simp [pinStep]
@[simp] theorem pinStep_latch_envSr (b : Bool) : (pinStep .latch b s).envSr = s.envSr := by simp [pinStep]
@[simp] theorem pinStep_latch_envOut (b : Bool) : (pinStep .latch b s).envOut = if !s.latch && b then s.envSr else s.envOut := by simp [pinStep]

/-- The next step is a shift micro-step that is not the last of its operation. -/
structure Shifting (s : State) : Prop where
  cfgWf : s.cfg.wf
  st    : s.st = .shift
  lo    : 1 ≤ s.upc.val
  hi    : s.upc.val < 49
  op    : (s.opr = .send ∧ s.upc.val < 24) ∨ s.opr = .write ∨ s.opr = .render

/-- A shift micro-step that is not the last of its operation makes its assignment and advances `UPC`. -/
theorem step_shifting (h : Shifting s) (hr : s.portNow.rst = false) :
    step s = .next { shiftUop s.upc.val (beginStep s) with upc := s.upc + 1 } := by
  obtain ⟨hc, hs, h1, hlt, ho⟩ := h
  have h49 : s.upc ≠ 49 := fun e => by rw [e] at hlt; exact absurd hlt (by decide)
  rcases ho with ⟨ho, hu⟩ | ho | ho
  · have hne : s.upc ≠ 24 := fun e => by rw [e] at hu; exact absurd hu (by decide)
    rw [step_send hc hr hs ho h1 (by omega), sendMicroStep_of_lt (by simpa using hne)]
    simp
  · rw [step_write hc hr hs ho, writeMicroStep_of_lt (by simpa using h49)]
    simp [frameUop_inner h1 (by omega : s.upc.val ≤ 48)]
  · rw [step_render hc hr hs ho, renderMicroStep_of_lt (by simpa using h49)]
    simp [frameUop_inner h1 (by omega : s.upc.val ≤ 48)]

/-- The micro-step that sets the data line. -/
theorem step_shifting_data (h : Shifting s) (hr : s.portNow.rst = false) (hm : (s.upc.val - 1) % 3 = 0) :
    step s = .next (pinStep .data (s.frame.getLsbD (15 - (s.upc.val - 1) / 3)) s) := by
  rw [step_shifting h hr, shiftUop_eq, if_pos hm, beginStep_frame, pinStep]

/-- The micro-steps that raise and lower the clock line. -/
theorem step_shifting_clk (h : Shifting s) (hr : s.portNow.rst = false) (hm : (s.upc.val - 1) % 3 ≠ 0) :
    step s = .next (pinStep .clk (decide ((s.upc.val - 1) % 3 = 1)) s) := by
  rw [step_shifting h hr, shiftUop_eq, if_neg hm, pinStep]

/-- The first micro-step of a frame lowers the latch line (spec/42_shift_register_frame.md R146). -/
theorem step_frameStart (hc : s.cfg.wf) (hr : s.portNow.rst = false) (hs : s.st = .shift) (hu : s.upc = 0)
    (ho : s.opr = .write ∨ s.opr = .render) : step s = .next (pinStep .latch false s) := by
  rcases ho with ho | ho
  · rw [step_write hc hr hs ho, writeMicroStep_of_lt (by simp [hu])]
    simp [hu, pinStep]
  · rw [step_render hc hr hs ho, renderMicroStep_of_lt (by simp [hu])]
    simp [hu, pinStep]

/-- The state when a bit has been clocked out: one step each for data, clock up, clock down. -/
def afterBit (b : Bool) (s : State) : State :=
  { s with
    data   := b
    clk    := false
    envSr  := if !s.clk then shiftIn s.envSr b else s.envSr
    trace  := s.trace ++ bitEvents [b]
    upc    := s.upc + 1 + 1 + 1
    stepNo := s.stepNo + 3
    rsp    := none
    inputs := s.inputs.drop 3 }

theorem afterBit_eq (b : Bool) : pinStep .clk false (pinStep .clk true (pinStep .data b s)) = afterBit b s := by
  apply State.ext <;> simp [afterBit, bitEvents, ← List.drop_one]

/-- No reset comes within the rest of a stretch, after a step. -/
theorem NoReset.step {k : Nat} (h : NoReset (k + 1) s) (ht : t.inputs = s.inputs.tail) : NoReset k t := by
  intro p hp
  rw [ht] at hp
  refine h p ?_
  cases hi : s.inputs with
  | nil => simp [hi] at hp
  | cons q qs =>
    rw [hi] at hp
    exact List.mem_cons_of_mem _ hp

/-- No reset comes within the rest of a stretch, after some steps. -/
theorem NoReset.drop {j k : Nat} (h : NoReset (j + k) s) (ht : t.inputs = s.inputs.drop j) : NoReset k t := by
  intro p hp
  rw [ht] at hp
  refine h p ?_
  rw [List.take_add]
  exact List.mem_append_right _ hp

/-- The three micro-steps of bit `k` in sending order. -/
theorem run_bit {k : Nat} (hc : s.cfg.wf) (hs : s.st = .shift) (hu : s.upc.val = 3 * k + 1) (hk : k < 16)
    (ho : (s.opr = .send ∧ k < 7) ∨ s.opr = .write ∨ s.opr = .render)
    (hr : NoReset 3 s) : run 3 s = .next (afterBit (s.frame.getLsbD (15 - k)) s) := by
  obtain ⟨h3, h2, h1⟩ := upc_add_three (u := s.upc) (by omega)
  have ho' : (s.opr = .send ∧ s.upc.val + 2 < 24) ∨ s.opr = .write ∨ s.opr = .render :=
    ho.imp_left (fun h => ⟨h.1, by omega⟩)
  have e1 := step_shifting_data ⟨hc, hs, by omega, by omega, ho'.imp_left (fun h => ⟨h.1, by omega⟩)⟩ hr.portNow
    (by omega)
  have hk' : (s.upc.val - 1) / 3 = k := by omega
  rw [hk'] at e1
  set b := s.frame.getLsbD (15 - k) with hb
  have n1 : NoReset 2 (pinStep .data b s) := hr.step (by simp)
  have e2 := step_shifting_clk (s := pinStep .data b s)
    ⟨by simpa using hc, by simpa using hs, by simp; omega, by simp; omega,
      by simpa using ho'.imp_left (fun h => ⟨h.1, by omega⟩)⟩ n1.portNow (by simp; omega)
  have d2 : decide (((pinStep .data b s).upc.val - 1) % 3 = 1) = true := by simp; omega
  rw [d2] at e2
  have n2 : NoReset 1 (pinStep .clk true (pinStep .data b s)) := n1.step (by simp)
  have e3 := step_shifting_clk (s := pinStep .clk true (pinStep .data b s))
    ⟨by simpa using hc, by simpa using hs, by simp; omega, by simp; omega,
      by simpa using ho'.imp_left (fun h => ⟨h.1, by omega⟩)⟩ n2.portNow (by simp; omega)
  have d3 : decide (((pinStep .clk true (pinStep .data b s)).upc.val - 1) % 3 = 1) = false := by simp; omega
  rw [d3] at e3
  rw [run_succ_of_step _ e1, run_succ_of_step _ e2, run_succ_of_step _ e3, run_zero, afterBit_eq]

/-- The state when a list of bits has been clocked out. -/
def afterBits : List Bool → State → State
  | [], s      => s
  | b :: bs, s => afterBits bs (afterBit b s)

/-- The bits of `FRAME` from bit `k` in sending order on (spec/41_serial_out.md R121). -/
def frameBits (f : Word) (k n : Nat) : List Bool := (List.range' k n).map (fun j => f.getLsbD (15 - j))

/-- The micro-steps of `n` bits from bit `k` on, before the last bit of a `SEND`. -/
theorem run_bits (n : Nat) {k : Nat} (hc : s.cfg.wf) (hs : s.st = .shift) (hu : s.upc.val = 3 * k + 1)
    (hk : k + n ≤ 16) (ho : (s.opr = .send ∧ k + n ≤ 7) ∨ s.opr = .write ∨ s.opr = .render)
    (hr : NoReset (3 * n) s) : run (3 * n) s = .next (afterBits (frameBits s.frame k n) s) := by
  induction n generalizing s k with
  | zero => simp [frameBits, afterBits]
  | succ n ih =>
    have h3 := (upc_add_three (u := s.upc) (by omega)).1
    have e := run_bit (k := k) hc hs hu (by omega) (ho.imp_left (fun h => ⟨h.1, by omega⟩)) (hr.mono (by omega))
    set t := afterBit (s.frame.getLsbD (15 - k)) s with ht
    have hr' : NoReset (3 * n) t := NoReset.drop (j := 3) (s := s) (hr.mono (by omega)) (by simp [ht, afterBit])
    have := ih (s := t) (k := k + 1) hc hs (by simp only [ht, afterBit]; omega) (by omega)
      (ho.imp_left (fun h => ⟨h.1, by omega⟩)) hr'
    rw [show 3 * (n + 1) = 3 + 3 * n by ring, run_add e, this]
    simp [frameBits, afterBits, List.range'_succ, ht, afterBit]

/-- What the bits leave in the state: the lines, the shift stage, the events and the counts; nothing else. -/
theorem afterBits_eq (bs : List Bool) (hclk : s.clk = false) :
    afterBits bs s =
      { s with
        data   := bs.getLast?.getD s.data
        envSr  := bs.foldl shiftIn s.envSr
        trace  := s.trace ++ bitEvents bs
        upc    := (afterBits bs s).upc
        stepNo := s.stepNo + 3 * bs.length
        rsp    := (afterBits bs s).rsp
        inputs := s.inputs.drop (3 * bs.length) } := by
  induction bs generalizing s with
  | nil => simp [afterBits, bitEvents]
  | cons b bs ih =>
    rw [afterBits, ih (s := afterBit b s) rfl]
    apply State.ext <;> simp [afterBit, hclk, bitEvents, Nat.mul_succ, Nat.add_assoc, Nat.add_comm, List.getLast?_cons]

end Sys2Proof.Machine
end

