-- ==== Sys2Proof/Laws/Frames.lean ====
section
/-!
SUPPORT. The stretches that the long operations are made of, each as one state: the 23 steps of a `SEND` before its last,
the 49 steps of a frame before its last, the steps of a dwell before its last.
-/
namespace Sys2Proof.Machine

variable {s t : State}

/-- The micro-step counter after a list of bits. -/
theorem afterBits_upc (bs : List Bool) (h : s.upc.val + 3 * bs.length < 50) :
    (afterBits bs s).upc.val = s.upc.val + 3 * bs.length := by
  induction bs generalizing s with
  | nil => rfl
  | cons b bs ih =>
    simp only [List.length_cons] at h
    have e : (afterBit b s).upc.val = s.upc.val + 3 := (upc_add_three (u := s.upc) (by omega)).1
    rw [afterBits, ih (by rw [e]; omega), e, List.length_cons]
    omega

/-- No response is on the port after a bit. -/
theorem afterBits_rsp (bs : List Bool) (h : bs ≠ []) : (afterBits bs s).rsp = none := by
  induction bs generalizing s with
  | nil => exact absurd rfl h
  | cons b bs ih =>
    cases bs with
    | nil => rfl
    | cons c cs => exact ih (by simp)

@[simp] theorem frameBits_length (f : Word) (k n : Nat) : (frameBits f k n).length = n := by simp [frameBits]

/-- The last bit of a stretch of `FRAME` in sending order. -/
theorem frameBits_getLast? (f : Word) (k n : Nat) :
    (frameBits f k (n + 1)).getLast? = some (f.getLsbD (15 - (k + n))) := by
  simp [frameBits, List.getLast?_eq_getElem?]

/-- The sixteen bits of a frame are its two bytes, each from bit 7 down. -/
theorem frameBits_frame (g m : Byte) : frameBits (g ++ m) 0 16 = byteBits g ++ byteBits m := by
  simp [frameBits, byteBits, List.range'_succ, frame_getLsbD]

/-- The first eight bits of a frame are its high byte from bit 7 down. -/
theorem frameBits_byte (g m : Byte) : frameBits (g ++ m) 0 8 = byteBits g := by
  simp [frameBits, byteBits, List.range'_succ, frame_getLsbD]

/-- Sixteen bits fill the shift stage: no trace of what it held (spec/20_memory.md R59). -/
theorem foldl_shiftIn_frameBits (f sr : Word) : (frameBits f 0 16).foldl shiftIn sr = f := by
  apply BitVec.eq_of_getLsbD_eq
  intro k hk
  rw [foldl_shiftIn_getLsbD _ _ _ hk, frameBits_length, if_pos hk, List.getD_eq_getElem _ _ (by simp; omega)]
  simp [frameBits, show 15 - (15 - k) = k by omega]

/-- The events of two lists of bits. -/
theorem bitEvents_append (xs ys : List Bool) : bitEvents (xs ++ ys) = bitEvents xs ++ bitEvents ys := by
  induction xs with
  | nil => rfl
  | cons b bs ih => simp [bitEvents, ih]

/-- The steps of a stretch of bits from a known micro-step on, as one state. -/
theorem run_bits_eq (n : Nat) {k : Nat} {u : Fin 50} (hc : s.cfg.wf) (hs : s.st = .shift)
    (hclk : s.clk = false) (hu : s.upc.val = 3 * k + 1) (hk : k + (n + 1) ≤ 16)
    (ho : (s.opr = .send ∧ k + (n + 1) ≤ 7) ∨ s.opr = .write ∨ s.opr = .render)
    (hr : NoReset (3 * (n + 1)) s) (hv : u.val = s.upc.val + 3 * (n + 1)) :
    run (3 * (n + 1)) s = .next
      { s with
        data   := s.frame.getLsbD (15 - (k + n))
        envSr  := (frameBits s.frame k (n + 1)).foldl shiftIn s.envSr
        trace  := s.trace ++ bitEvents (frameBits s.frame k (n + 1))
        upc    := u
        stepNo := s.stepNo + 3 * (n + 1)
        rsp    := none
        inputs := s.inputs.drop (3 * (n + 1)) } := by
  have hne : frameBits s.frame k (n + 1) ≠ [] := fun e => by
    have := congrArg List.length e
    simp at this
  have hlen : (afterBits (frameBits s.frame k (n + 1)) s).upc = u :=
    Fin.ext (by rw [afterBits_upc _ (by rw [frameBits_length]; omega), frameBits_length, hv])
  rw [run_bits _ hc hs hu hk ho hr, afterBits_eq _ hclk, hlen, afterBits_rsp _ hne, frameBits_getLast?,
    frameBits_length, Option.getD_some]

/-- The 49 micro-steps of a frame before the one that raises the latch line (spec/42_shift_register_frame.md R146). -/
theorem run_frame (hc : s.cfg.wf) (hs : s.st = .shift) (hclk : s.clk = false) (hu : s.upc = 0)
    (ho : s.opr = .write ∨ s.opr = .render) (hr : NoReset 49 s) :
    run 49 s = .next
      { s with
        data   := s.frame.getLsbD 0
        latch  := false
        envSr  := s.frame
        trace  := s.trace ++ ⟨.latch, false⟩ :: bitEvents (frameBits s.frame 0 16)
        upc    := 49
        stepNo := s.stepNo + 49
        rsp    := none
        inputs := s.inputs.drop 49 } := by
  have e1 := step_frameStart hc (NoReset.portNow (k := 48) hr) hs hu ho
  have e2 := run_bits_eq (s := pinStep .latch false s) 15 (k := 0) (u := 49) (by simpa using hc) (by simpa using hs)
    (by simpa using hclk) (by simp [hu]) (by decide) (.inr (by simpa using ho))
    (NoReset.step (k := 48) hr (by simp)) (by simp [hu])
  refine (run_succ_of_step 48 e1).trans (e2.trans ?_)
  congr 1
  apply State.ext <;> simp [foldl_shiftIn_frameBits]

/-- The 23 micro-steps of a `SEND` before its last, which lowers the clock line (spec/41_serial_out.md R120). -/
theorem run_send (hc : s.cfg.wf) (hs : s.st = .shift) (hclk : s.clk = false) (hu : s.upc = 1)
    (ho : s.opr = .send) (hr : NoReset 23 s) :
    run 23 s = .next
      { s with
        data   := s.frame.getLsbD 8
        clk    := true
        envSr  := (frameBits s.frame 0 8).foldl shiftIn s.envSr
        trace  := s.trace ++ (bitEvents (frameBits s.frame 0 7) ++ [⟨.data, s.frame.getLsbD 8⟩, ⟨.clk, true⟩])
        upc    := 24
        stepNo := s.stepNo + 23
        rsp    := none
        inputs := s.inputs.drop 23 } := by
  have e0 := run_bits_eq (s := s) 6 (k := 0) (u := 22) hc hs hclk (by simp [hu]) (by decide)
    (.inl ⟨ho, by decide⟩) (hr.mono (by decide)) (by simp [hu])
  generalize ht : ({ s with
        data   := s.frame.getLsbD (15 - (0 + 6))
        envSr  := (frameBits s.frame 0 (6 + 1)).foldl shiftIn s.envSr
        trace  := s.trace ++ bitEvents (frameBits s.frame 0 (6 + 1))
        upc    := 22
        stepNo := s.stepNo + 3 * (6 + 1)
        rsp    := none
        inputs := s.inputs.drop (3 * (6 + 1)) } : State) = t at e0
  have hframe : t.frame = s.frame := by rw [← ht]
  have hclk' : t.clk = false := by rw [← ht]; exact hclk
  have h22 : t.upc = 22 := by rw [← ht]
  have n2 : NoReset 2 t := NoReset.drop (j := 21) (s := s) hr (by rw [← ht])
  have S1 : Shifting t := ⟨by rw [← ht]; exact hc, by rw [← ht]; exact hs, by simp [h22], by simp [h22],
    .inl ⟨by rw [← ht]; exact ho, by simp [h22]⟩⟩
  have e1 := step_shifting_data S1 n2.portNow (by simp [h22])
  rw [h22, hframe, show 15 - (((22 : Fin 50).val - 1) / 3) = 8 from rfl] at e1
  have n1 : NoReset 1 (pinStep .data (s.frame.getLsbD 8) t) := n2.step (by simp)
  have S2 : Shifting (pinStep .data (s.frame.getLsbD 8) t) :=
    ⟨by simpa using S1.cfgWf, by simpa using S1.st, by simp [h22], by simp [h22], .inl ⟨by rw [← ht]; exact ho, by simp [h22]⟩⟩
  have e2 := step_shifting_clk S2 n1.portNow (by simp [h22])
  rw [show decide (((pinStep .data (s.frame.getLsbD 8) t).upc.val - 1) % 3 = 1) = true by simp [h22]] at e2
  have hb : frameBits s.frame 0 8 = frameBits s.frame 0 7 ++ [s.frame.getLsbD 8] := by
    simp [frameBits, List.range'_succ]
  refine (run_add (m := 21) (n := 2) e0).trans ((run_succ_of_step 1 e1).trans ((run_succ_of_step 0 e2).trans ?_))
  rw [run_zero]
  congr 1
  apply State.ext <;> simp [hclk', h22] <;> simp [← ht, hb, List.foldl_append]

/-- The steps of a dwell before its last: nothing but the counter moves (spec/43_display_multiplexer.md R165). -/
theorem run_dwell (n : Nat) (hc : s.cfg.wf) (hs : s.st = .dwell) (hn : n + 1 < s.dwellcnt)
    (hr : NoReset (n + 1) s) :
    run (n + 1) s = .next
      { s with
        dwellcnt := s.dwellcnt - (n + 1)
        stepNo   := s.stepNo + (n + 1)
        rsp      := none
        inputs   := s.inputs.drop (n + 1) } := by
  induction n generalizing s with
  | zero =>
    have e := step_dwell hc (NoReset.portNow (k := 0) hr) hs (by omega)
    rw [dwellTick_of_ne (by simp; omega)] at e
    rw [run_succ_of_step _ e, run_zero]
    congr 1
    apply State.ext <;> simp
  | succ n ih =>
    have e := step_dwell hc (NoReset.portNow (k := n + 1) hr) hs (by omega)
    rw [dwellTick_of_ne (by simp; omega)] at e
    rw [run_succ_of_step _ e, ih (by simpa using hc) (by simpa using hs) (by simp; omega) (hr.step (by simp))]
    congr 1
    apply State.ext <;> simp [Nat.sub_sub, Nat.add_comm, Nat.add_left_comm]

end Sys2Proof.Machine
end

