-- ==== Sys2Proof/Laws/Invariant.lean ====
section
/-!
SUPPORT. How the parts of a step keep the invariant: what happens in IDLE, a shift micro-step, the first micro-step of a
frame; and what the invariant says just before a frame's last micro-step.
-/
namespace Sys2Proof.Machine

variable {s t : State}

/-- In IDLE the invariant says only that the parameters are accepted, the dwell counter is 0 and the clock line is low. -/
theorem MachineInv.of_idle (hc : s.cfg.wf) (hs : s.st = .idle) (hn : s.dwellcnt = 0) (hclk : s.clk = false) :
    MachineInv s where
  cfgWf       := hc
  legal       := ⟨by simp [hs, St.code], by omega, by simp [hn], by simp [hs], by simp [hs], by simp [hs], fun _ => hclk⟩
  cntZero _   := hn
  shiftTracks := by simp [hs]
  frameLatch  := by simp [hs]
  renderFrame := by simp [hs]
  dwellUpc    := by simp [hs]
  dwellData   := by simp [hs]
  dwellSr     := by simp [hs]
  dwellOut    := by simp [hs]

/-- A shift micro-step moves the lines and the shift stage on with `UPC`. -/
theorem ShiftTracks.shiftUop (h : ShiftTracks s) (h1 : 1 ≤ s.upc.val) (h2 : s.upc.val < 49) :
    ShiftTracks { shiftUop s.upc.val (beginStep s) with upc := s.upc + 1 } := by
  have hu := upc_succ_val h2
  obtain ⟨hc, hd, hsr⟩ := h
  rw [shiftUop_eq]
  by_cases hp : (s.upc.val - 1) % 3 = 0
  · rw [if_pos hp]
    refine ⟨?_, fun _ => ?_, fun j hj => ?_⟩
    · simp only [assignPin_data_clk, beginStep_clk, hc, hu]
      congr 1
      apply propext
      omega
    · simp [hu]
    · simp [hu] at hj ⊢
      rw [hsr j (by omega)]
      congr 1
      omega
  rw [if_neg hp]
  by_cases hp1 : (s.upc.val - 1) % 3 = 1
  · have hclk : s.clk = false := by
      rw [hc]
      simp
      omega
    refine ⟨?_, fun _ => ?_, fun j hj => ?_⟩
    · simp [hu, hp1]
      omega
    · simp [hu]
      rw [hd (by omega)]
      congr 2
      omega
    · simp [hu] at hj
      simp [hu, hp1, hclk, shiftIn_getLsbD]
      rw [hd (by omega)]
      split
      · congr 1
        omega
      · rw [hsr (j - 1) (by omega)]
        simp [show j < 16 by omega]
        congr 1
        omega
  · refine ⟨?_, fun _ => ?_, fun j hj => ?_⟩
    · simp [hu, hp1]
      omega
    · simp [hu]
      rw [hd (by omega)]
      congr 2
      omega
    · simp [hu] at hj
      simp [hu, hp1]
      rw [hsr j (by omega)]
      congr 1
      omega

/-- A shift micro-step that is not the last of its operation keeps the invariant. -/
theorem MachineInv.shiftUop (hi : MachineInv s) (hs : s.st = .shift) (h1 : 1 ≤ s.upc.val) (h2 : s.upc.val < 49)
    (h3 : s.opr = .send → s.upc.val < 24) :
    MachineInv { shiftUop s.upc.val (beginStep s) with upc := s.upc + 1 } := by
  have hu := upc_succ_val h2
  have hc0 := hi.cntZero (by simp [hs])
  have ho := hi.legal.shiftOpr hs
  have hl := hi.frameLatch hs
  have hf := hi.renderFrame (by simp [hs])
  have hk := (hi.shiftTracks hs).shiftUop h1 h2
  obtain ⟨p, b, hpl, e⟩ : ∃ p b, p ≠ .latch ∧ Machine.shiftUop s.upc.val (beginStep s) = assignPin p b (beginStep s) := by
    rw [shiftUop_eq]
    split
    · exact ⟨_, _, by decide, rfl⟩
    · exact ⟨_, _, by decide, rfl⟩
  rw [e] at hk ⊢
  refine ⟨by simpa using hi.cfgWf, ⟨?_, ?_, ?_, ?_, ?_, ?_, ?_⟩, ?_, fun _ => hk, ?_, ?_, ?_, ?_, ?_, ?_⟩
  · simp [hs, St.code]
  · simp [hu]
    omega
  · simp [hc0]
  · simp [hs]
  · simpa [hs] using ho
  · intro _ hsend
    have := h3 (by simpa using hsend)
    simp [hu]
    omega
  · simp [hs]
  · simp [hc0]
  · intro _ hne _
    cases p with
    | latch => exact absurd rfl hpl
    | data => simpa using hl (by simpa using hne) h1
    | clk => simpa using hl (by simpa using hne) h1
  · intro _ hr
    simpa using hf (by simpa using hr)
  · simp [hs]
  · simp [hs]
  · simp [hs]
  · simp [hs]

/-- The first micro-step of a frame, which lowers the latch line, keeps the invariant. -/
theorem MachineInv.frameStart (hi : MachineInv s) (hs : s.st = .shift) (h0 : s.upc = 0) (ho : s.opr ≠ .send) :
    MachineInv { assignPin .latch false (beginStep s) with upc := s.upc + 1 } := by
  have hu : (s.upc + 1).val = 1 := by rw [h0]; rfl
  have hc0 := hi.cntZero (by simp [hs])
  have hf := hi.renderFrame (by simp [hs])
  have hclk : s.clk = false := by rw [(hi.shiftTracks hs).clk, h0]; rfl
  refine ⟨by simpa using hi.cfgWf, ⟨by simp [hs, St.code], by simp [hu], by simp [hc0], by simp [hs],
    by simpa [hs] using hi.legal.shiftOpr hs, by simp [ho], by simp [hclk]⟩, by simp [hc0],
    fun _ => ⟨by simp [hclk, hu], by simp [hu], by simp [hu]⟩, by simp, by simpa [hs] using hf,
    by simp [hs], by simp [hs], by simp [hs], by simp [hs]⟩

/-- Just before the micro-step that raises the latch line, the whole frame stands in the shift stage, the clock line is
low and the data line holds the frame's last bit. -/
theorem MachineInv.frameEnd (hi : MachineInv s) (hs : s.st = .shift) (h49 : s.upc = 49) :
    s.envSr = s.frame ∧ s.clk = false ∧ s.data = s.frame.getLsbD 0 := by
  obtain ⟨hc, hd, hsr⟩ := hi.shiftTracks hs
  rw [h49] at hc hd hsr
  refine ⟨?_, by rw [hc]; rfl, hd (by decide)⟩
  apply BitVec.eq_of_getLsbD_eq
  intro j hj
  simpa using hsr j hj

end Sys2Proof.Machine
end

