-- ==== Sys2Proof/Laws/PerInstr.lean ====
section
/-!
SUPPORT. What is said per instruction as syntax: the word of an instruction belongs to its row of
spec/opcode_table.json, under the mask and pattern that the table prints.
-/
namespace Sys2Proof.Laws.TableRow

/-- The row of the instruction is in the table, and its word belongs to the row (spec/30_encoding.md R84). -/
def Statement (i : Instr) : Prop := rowOf i ∈ opcodeTable ∧ (rowOf i).holds (encode i) = true

/-- A word belongs to a row when it agrees with the pattern in every bit of the mask. -/
theorem holds_of_bits {r : OpcodeRow} {w : CmdWord}
    (h : ∀ k, k < 24 → (w.getLsbD k && r.mask.getLsbD k) = r.pattern.getLsbD k) : r.holds w = true := by
  simp only [OpcodeRow.holds, beq_iff_eq]
  apply BitVec.eq_of_getLsbD_eq
  intro k hk
  rw [BitVec.getLsbD_and]
  exact h k hk

theorem enc (digit : BitVec 4) (dp : Bool) : Statement (.enc digit dp) := by
  refine ⟨by simp [rowOf, opcodeTable], holds_of_bits fun k hk => ?_⟩
  rw [encode, packWord_getLsbD, operandBits_enc_getLsbD]
  interval_cases k <;> simp [rowOf, opCode]

theorem send (byte : Byte) : Statement (.send byte) := by
  refine ⟨by simp [rowOf, opcodeTable], holds_of_bits fun k hk => ?_⟩
  rw [encode, packWord_getLsbD, operandBits_send_getLsbD]
  interval_cases k <;> simp [rowOf, opCode]

theorem latch (level : Bool) : Statement (.latch level) := by
  refine ⟨by simp [rowOf, opcodeTable], holds_of_bits fun k hk => ?_⟩
  rw [encode, packWord_getLsbD, operandBits_latch_getLsbD]
  interval_cases k <;> simp [rowOf, opCode]

theorem write (seg dsel : Byte) : Statement (.write seg dsel) := by
  refine ⟨by simp [rowOf, opcodeTable], holds_of_bits fun k hk => ?_⟩
  rw [encode, packWord_getLsbD, operandBits_write_getLsbD]
  interval_cases k <;> simp [rowOf, opCode]

theorem render (value : Word) (dpen : Bool) (dpidx : BitVec 2) : Statement (.render value dpen dpidx) := by
  refine ⟨by simp [rowOf, opcodeTable], holds_of_bits fun k hk => ?_⟩
  rw [encode, packWord_getLsbD, operandBits_render_getLsbD]
  interval_cases k <;> simp [rowOf, opCode]

end Sys2Proof.Laws.TableRow
end

