-- ==== Sys2Proof/Tests/Slice0.lean ====
section
/-!
SUPPORT. Small tests of one step or one word each, with expected results from the spec's encodings and test vectors
(spec/95_test_vectors.md, cited as V<n>), and for each obligation with hypotheses a witness that meets them.
-/
namespace Sys2Proof.Tests

open Sys2Proof.Machine

/-! ### Words, written out bit by bit: OP, RSV, then the format's fields (spec/30_encoding.md R76 to R82) -/

/-- Format E: OP 000, RSV 00, 14 zero bits, DP 1, DIGIT 0111 (R78). -/
theorem test_decode_enc : decode 0b000_00_00000000000000_1_0111#24 = .ok (.enc 7 true) := by decide

/-- Format S: OP 001, RSV 00, 11 zero bits, BYTE (R79). -/
theorem test_decode_send : decode 0b001_00_00000000000_10100100#24 = .ok (.send 0xA4) := by decide

/-- Format L: OP 010, RSV 00, 18 zero bits, LEVEL (R80). -/
theorem test_decode_latch : decode 0b010_00_000000000000000000_1#24 = .ok (.latch true) := by decide

/-- Format W: OP 011, RSV 00, 3 zero bits, SEG, DSEL (R81). -/
theorem test_decode_write : decode 0b011_00_000_11111001_00000001#24 = .ok (.write 0xF9 0x01) := by decide

/-- Format R: OP 100, RSV 00, DPEN 1, DPIDX 01, VALUE 245 (R82). -/
theorem test_decode_render : decode 0b100_00_1_01_0000000011110101#24 = .ok (.render 245 true 1) := by decide

/-- `DPEN = 0` with `DPIDX = 3` is a legal word (V43). -/
theorem test_decode_render_dead_index : decode 0b100_00_0_11_0000000011110101#24 = .ok (.render 245 false 3) := by
  decide

/-- Each reason for which a word is illegal (V47, V50 to V56, V19, V27). -/
theorem test_decode_illegal :
    decode 0xA00000 = .error .reservedOp ∧ decode 0xC00000 = .error .reservedOp ∧
    decode 0xFFFFFF = .error .reservedOp ∧ decode 0x080000 = .error .reservedBit ∧
    decode 0x880000 = .error .reservedBit ∧ decode 0x900000 = .error .reservedBit ∧
    decode 0x000020 = .error .mustBeZero ∧ decode 0x00002A = .error .mustBeZero ∧
    decode 0x200100 = .error .mustBeZero ∧ decode 0x400002 = .error .mustBeZero ∧
    decode 0x610000 = .error .mustBeZero := by decide

/-- Words that the encoder makes (R86). -/
theorem test_encode :
    encode (.enc 10 false) = 0x00000A ∧ encode (.send 0xA4) = 0x2000A4 ∧ encode (.latch true) = 0x400001 ∧
    encode (.write 0xF9 0x01) = 0x60F901 ∧ encode (.render 9999 true 3) = 0x87270F := by decide

/-- The word is read as the opcode table numbers its bits. -/
theorem test_decode_table_word :
    decodeTableWord 24 0x60F901 = some (.write 0xF9 0x01) ∧ decodeTableWord 24 0xA00000 = none := by decide

/-! ### The assembler (R86) -/

/-- An operand one above its field is refused, for each check. -/
theorem test_wellformed_refuses :
    [AsmCmd.enc 16 none, .enc 0 (some 2), .send 256, .latch 2, .write 256 0, .write 0 256, .render 65536 none,
      .render 65536 (some 0), .render 0 (some 4), .encDp 16, .word 0x1000000].map AsmCmd.wellFormed =
    List.replicate 11 false := by decide

/-- The largest operand of each field is accepted; a digit from 10 to 15 too. -/
theorem test_wellformed_accepts :
    [AsmCmd.enc 15 none, .enc 15 (some 1), .send 255, .latch 1, .write 255 255, .render 65535 none,
      .render 65535 (some 3), .latchLo, .latchHi, .encDp 15, .blank, .word 0xFFFFFF].map AsmCmd.wellFormed =
    List.replicate 12 true := by decide

/-- A line with a comment, a hexadecimal operand, a blank line, and three lines that are refused. -/
theorem test_parse_line :
    parseLine ['E', 'N', 'C', ' ', '7', ',', ' ', '1', ';', 'x'] = .command (.enc 7 (some 1)) ∧
    parseLine ['S', 'E', 'N', 'D', ' ', '0', 'x', 'A', '4'] = .command (.send 0xA4) ∧
    parseLine ['B', 'L', 'A', 'N', 'K'] = .command .blank ∧
    parseLine [' ', ';', 'x'] = .empty ∧
    parseLine ['E', 'N', 'C'] = .malformed ∧
    parseLine ['e', 'n', 'c', ' ', '7'] = .malformed ∧
    parseLine ['S', 'E', 'N', 'D', ' ', '0', 'x'] = .malformed := by decide

/-- A program of two lines (R86), and one with an operand that does not fit. -/
theorem test_assemble_lines :
    assembleLines [['E', 'N', 'C', 'D', 'P', ' ', '7'], ['L', 'A', 'T', 'C', 'H', 'H', 'I']] =
      some [0x000017, 0x400001] ∧
    assembleLines [['R', 'E', 'N', 'D', 'E', 'R', ' ', '9', ',', '4']] = none := by decide

/-! ### Small states -/

/-- The default table with a dwell of two steps. -/
def cfgTest : Config := { Config.reference with dwellTicks := 2 }

/-- The block after reset, with known contents of the external register. -/
def idleAt (ps : List PortSample) : State := State.powerUp cfgTest 0xA402 0x1234 ps

/-- The block in IDLE with a word on the command port. -/
def offered (w : CmdWord) : State := idleAt [PortSample.offer w]

/-- A SHIFT state in a frame with bytes 0xF9 and 0x01, all sixteen bits of which stand in the shift stage. -/
def shifting (o : Opr) (u : Fin 50) (clk : Bool) : State :=
  { idleAt [] with
    st := .shift, opr := o, upc := u, frame := 0xF901, envSr := 0xF901, data := true, clk := clk, val := 1000 }

/-- A DWELL state of a sweep of 1000: digit `i` is shown for `n` more steps. -/
def dwelling (i : BitVec 2) (n : Nat) : State :=
  { idleAt [] with
    st := .dwell, opr := .render, upc := 49, didx := i, val := 1000, dwellcnt := n
    frame := frameFor cfgTest 1000 false 0 i, envSr := frameFor cfgTest 1000 false 0 i
    envOut := frameFor cfgTest 1000 false 0 i, data := (digitPosRead i).getLsbD 0, latch := true }

/-- What a step leaves of a state, when it answers a next state. -/
def after {α : Type} (f : State → α) (s : State) : Option α := (next? (step s)).map f

/-! ### Single steps -/

/-- `ENC 7` responds with its pattern in its accept step (V1). -/
theorem test_enc_seven :
    after (fun t => (t.pattern, t.rspLog, t.st)) (offered 0x000007) = some (0xF8, [⟨1, ⟨.ok, 0xF8⟩⟩], .idle) := by
  decide

/-- `ENC 12` is rejected with the old `PATTERN` (V3, V4). -/
theorem test_enc_twelve :
    after (fun t => (t.pattern, t.rspLog, t.trace)) { offered 0x00000C with pattern := 0xF8 } =
      some (0xF8, [⟨1, ⟨.invalidDigit, 0xF8⟩⟩], []) := by decide

/-- The accept step of `SEND 0xA4` (V12). -/
theorem test_send_accept :
    after (fun t => (t.frame, t.upc, t.st, t.trace, t.rsp)) (offered 0x2000A4) =
      some (0xA400, 1, .shift, [], none) := by decide

/-- `SEND` accepted while the latch line is high records the violation and no more (V13). -/
theorem test_send_latch_high :
    after (fun t => (t.haz1, t.st, t.rsp, t.latch)) { offered 0x2000A4 with latch := true } =
      some (true, .shift, none, true) := by decide

/-- `LATCH 1` from a low latch line copies the shift stage (V18). -/
theorem test_latch_rising :
    after (fun t => (t.envOut, t.latch, t.trace, t.rsp)) (offered 0x400001) =
      some (0xA402, true, [⟨.latch, true⟩], some ⟨.ok, 0xFF⟩) := by decide

/-- `LATCH 1` with the line already high is an event without an edge (V16). -/
theorem test_latch_no_edge :
    after (fun t => (t.envOut, t.latch, t.trace)) { offered 0x400001 with latch := true } =
      some (0x1234, true, [⟨.latch, true⟩]) := by decide

/-- The accept step of `WRITE 0xF9, 0x01` (V20). -/
theorem test_write_accept :
    after (fun t => (t.frame, t.upc, t.st, t.opr, t.trace)) (offered 0x60F901) =
      some (0xF901, 0, .shift, .write, []) := by decide

/-- The last micro-step of `WRITE 0xF9, 0x01` shows the frame and responds (V20). -/
theorem test_write_last :
    after (fun t => (t.envOut, t.trace, t.rsp, t.st)) (shifting .write 49 false) =
      some (0xF901, [⟨.latch, true⟩], some ⟨.ok, 0xFF⟩, .idle) := by decide

/-- The accept step of `RENDER 245, 0` forms the frame of digit 0 with its point on (V40). -/
theorem test_render_accept :
    after (fun t => (t.val, t.didx, t.frame, t.upc, t.st)) (offered 0x8400F5) =
      some (245, 0, 0x4001, 0, .shift) := by decide

/-- The step that raises the latch line in a sweep loads the dwell counter and sends no response (V48). -/
theorem test_render_last_of_frame :
    after (fun t => (t.envOut, t.dwellcnt, t.st, t.rsp)) (shifting .render 49 false) =
      some (0xF901, 2, .dwell, none) := by decide

/-- The end of the last dwell of a sweep responds, without a pin assignment (V48). -/
theorem test_dwell_end :
    after (fun t => (t.st, t.rsp, t.trace, t.dwellcnt)) (dwelling 3 1) =
      some (.idle, some ⟨.ok, 0xFF⟩, [], 0) := by decide

/-- An illegal `ENC` word with a digit above 9 is ILLEGAL_CMD, not INVALID_DIGIT (V55). -/
theorem test_illegal_first :
    after (fun t => (t.rspLog, t.trace, t.latch)) (offered 0x00002A) =
      some ([⟨1, ⟨.illegalCmd, 0xFF⟩⟩], [], false) := by decide

/-- Reset outranks a command on the port (V60) and makes no rising edge (V58). -/
theorem test_reset_outranks :
    after (fun t => (t.latch, t.rsp, t.envOut, t.st)) { idleAt [⟨true, true, 0x400001⟩] with latch := true } =
      some (false, none, 0x1234, .idle) := by decide

/-- The four frames of `RENDER 245, 1` (V32) and of `RENDER 12345` (V34). -/
theorem test_sweep_frames :
    [0, 1, 2, 3].map (frameFor Config.reference 245 true 1) = [0xC001, 0x2402, 0x9904, 0x9208] ∧
    [0, 1, 2, 3].map (frameFor Config.reference 12345 false 0) = [0xA401, 0xB002, 0x9904, 0x9208] := by decide

/-- The status codes as the port carries them (spec/60_exceptions.md R190). -/
theorem test_status_codes :
    [Status.ok, .ovf, .invalidDigit, .illegalCmd].map Status.code = [0, 1, 2, 3] := by decide

/-- A word placed by `withFetchWord` in the state after reset is run by the very next step. -/
theorem test_fetch_from_reset :
    after (fun t => (t.pattern, t.stepNo)) (State.reset.withFetchWord 24 0x000003) = some (0xB0, 1) := by decide

/-! ### Witnesses: the hypotheses of each obligation are met together -/

theorem accepts_offered (w : CmdWord) : Accepts (offered w) w := ⟨(by decide : cfgTest.wf), rfl, rfl, rfl, rfl⟩

theorem noReset_offered (k : Nat) (w : CmdWord) : NoReset k (offered w) := by
  intro p hp
  have := List.mem_of_mem_take hp
  simp [offered, idleAt, State.powerUp, PortSample.offer] at this
  simp [this]

theorem noReset_of_no_inputs {s : State} (h : s.inputs = []) (k : Nat) : NoReset k s := by
  intro p hp
  simp [h] at hp

/-- A step that answers a state with a property. -/
theorem exists_next {s : State} {p : State → Bool} (h : (next? (step s)).any p = true) :
    ∃ t, step s = .next t ∧ p t = true := by
  cases hs : step s with
  | next t => exact ⟨t, rfl, by simpa [hs, next?] using h⟩
  | fault r => simp [hs, next?] at h
  | refused r => simp [hs, next?] at h

/-- The invariant holds in an IDLE state. -/
theorem inv_offered (w : CmdWord) : MachineInv (offered w) := by
  refine ⟨(by decide : cfgTest.wf), ⟨by simp [offered, idleAt, State.powerUp, St.code], ?_, ?_, ?_, ?_, ?_, ?_⟩,
    ?_, ?_, ?_, ?_, ?_, ?_, ?_, ?_⟩ <;> simp [offered, idleAt, State.powerUp]

/-- The invariant holds in the states of a frame from micro-step 48 on. -/
theorem inv_shifting (u : Fin 50) (h : u = 48 ∨ u = 49) : MachineInv (shifting .write u (u == 48)) := by
  rcases h with rfl | rfl <;>
  exact ⟨by decide, ⟨by decide, by decide, by decide, by decide, by decide, by decide, by decide⟩, by decide,
    fun _ => ⟨by decide, by decide, by decide⟩, by decide, by decide, by decide, by decide, by decide, by decide⟩

/-- The invariant holds just before the last micro-step of a frame of `RENDER`. -/
theorem inv_shifting_render : MachineInv (shifting .render 49 false) :=
  ⟨by decide, ⟨by decide, by decide, by decide, by decide, by decide, by decide, by decide⟩, by decide,
    fun _ => ⟨by decide, by decide, by decide⟩, by decide, by decide, by decide, by decide, by decide, by decide⟩

/-- The invariant holds in the states of a dwell, at both ends of the counter and of the digit index. -/
theorem inv_dwelling (i : BitVec 2) (n : Nat) (hi : i = 0 ∨ i = 2 ∨ i = 3) (hn : n = 1 ∨ n = 2) :
    MachineInv (dwelling i n) := by
  rcases hi with rfl | rfl | rfl <;> rcases hn with rfl | rfl <;>
  exact ⟨by decide, ⟨by decide, by decide, by decide, by decide, by decide, by decide, by decide⟩, by decide,
    by intro h; exact absurd h (by decide), by decide, by decide, by decide, by decide, by decide, by decide⟩

theorem witness_LegalWordIsTheWordOfItsInstruction :
    decode 0x87270F = .ok (.render 9999 true 3) ∧ decode 0x000000 = .ok (.enc 0 false) := by decide

theorem witness_LegalExactlyWhenInATableRow :
    (rowOf (.write 0xF9 0x01)) ∈ opcodeTable ∧ (rowOf (.write 0xF9 0x01)).holds 0x60F901 = true := by decide

/-- Every operand at the lowest and the highest value of its range. -/
theorem witness_AssembledWordsDecodeToTheirOperands :
    ((0 ≤ 15 ∧ 0 ≤ 1) ∧ (15 ≤ 15 ∧ 1 ≤ 1)) ∧ (0 ≤ 255 ∧ 255 ≤ 255) ∧ ((0 ≤ 65535 ∧ 0 ≤ 3) ∧ (65535 ≤ 65535 ∧ 3 ≤ 3)) ∧
    (0 < 2 ^ 24 ∧ 0xFFFFFF < 2 ^ 24) ∧
    [AsmCmd.enc 15 (some 1), .send 255, .latch 1, .write 255 255, .render 65535 none, .render 65535 (some 3),
      .word 0xFFFFFF].map assemble =
      [some 0x00001F, some 0x2000FF, some 0x400001, some 0x60FFFF, some 0x80FFFF, some 0x87FFFF, some 0xFFFFFF] := by
  decide

theorem witness_EncoderReadsTheTableAndClearsBitSeven : Config.reference.wf := by decide

/-- Both clauses at the index where the one-hot bits end. -/
theorem witness_DigitPositionsAreOneHot : (3 < 8 ∧ 3 = (3#2).toNat) ∧ (7 < 8 ∧ 4 ≤ 7) := by decide

/-- The lowest and the highest value that four digits show. -/
theorem witness_DigitsOfAValue : (0#16).toNat ≤ 9999 ∧ (9999#16).toNat ≤ 9999 := by decide

theorem witness_ResetStepFromAnyState :
    { shifting .write 20 true with inputs := [PortSample.reset], haz1 := false }.cfg.wf ∧
    { shifting .write 20 true with inputs := [PortSample.reset], haz1 := false }.portNow.rst = true ∧
    (next? (step { shifting .write 20 true with inputs := [PortSample.reset] })).any (fun t => !t.haz1) = true := by
  decide

theorem witness_StepRunsTheAcceptedInstruction :
    Accepts (offered 0x60F901) 0x60F901 ∧ decode 0x60F901 = .ok (.write 0xF9 0x01) :=
  ⟨accepts_offered _, by decide⟩

theorem witness_FetchWordRunsItsInstruction :
    State.reset.cfg.wf ∧ decodeTableWord 24 0x8004D2 = some (.render 1234 false 0) := by decide

theorem witness_IdleStepChangesNothing :
    (idleAt []).cfg.wf ∧ (idleAt []).st = .idle ∧ (idleAt []).portNow.rst = false ∧
    (idleAt []).portNow.cmdValid = false := by decide

theorem witness_IllegalWordIsRejected :
    Accepts (offered 0xA00000) 0xA00000 ∧ (∀ r ∈ opcodeTable, r.holds 0xA00000 = false) ∧
    Accepts (offered 0x880000) 0x880000 ∧ (∀ r ∈ opcodeTable, r.holds 0x880000 = false) ∧
    Accepts (offered 0x200100) 0x200100 ∧ (∀ r ∈ opcodeTable, r.holds 0x200100 = false) :=
  ⟨accepts_offered _, by decide, accepts_offered _, by decide, accepts_offered _, by decide⟩

theorem witness_EncRejectsADigitAboveNine :
    (idleAt []).st = .idle ∧ 10 ≤ (10#4).toNat ∧ 10 ≤ (15#4).toNat := by decide

/-- The hypothesis `ST = IDLE` of the statements about one accept step. -/
theorem witness_EncReturnsThePatternOfItsDigit : (idleAt []).st = .idle := by decide
theorem witness_LatchDrivesTheLatchLine :
    (0x400001#24 &&& 0xFFFFFE = 0x400000) ∧
    (idleAt []).st = .idle ∧ (idleAt []).latch = false ∧ { idleAt [] with latch := true }.st = .idle := by decide
theorem witness_SendAcceptLoadsTheByte : (idleAt []).st = .idle := by decide
theorem witness_WriteAcceptLoadsTheFrame : (idleAt []).st = .idle := by decide
theorem witness_RenderAcceptLoadsTheFirstDigit : (idleAt []).st = .idle := by decide

/-- Each pin clause at the first and the last micro-step of its phase, `SEND` at both ends of its range; the clauses on
`UPC` and `ST` at the first step, at the last but one and at the last of `SEND`, `WRITE` and a frame of `RENDER`. -/
theorem witness_ShiftStepMakesItsAssignment :
    (∀ u ∈ ([0, 49, 1, 46, 2, 47, 3, 48] : List (Fin 50)),
      (shifting .write u false).cfg.wf ∧ (shifting .write u false).portNow.rst = false ∧
      (shifting .write u false).st = .shift ∧ (shifting .write u false).opr = .write) ∧
    (∀ u ∈ ([1, 23, 24] : List (Fin 50)), (shifting .send u false).st = .shift ∧ (shifting .send u false).opr = .send ∧
      1 ≤ (shifting .send u false).upc.val ∧ (shifting .send u false).upc.val ≤ 24) ∧
    ((shifting .render 49 false).st = .shift ∧ (shifting .render 49 false).opr = .render ∧
      (shifting .render 49 false).upc.val = 49) ∧
    (1 - 1) % 3 = 0 ∧ (46 - 1) % 3 = 0 ∧ (2 - 1) % 3 = 1 ∧ (47 - 1) % 3 = 1 ∧ (3 - 1) % 3 = 2 ∧ (48 - 1) % 3 = 2 := by
  decide

/-- Each clause: more than one step to come, the last step before another digit, the last step of the sweep. -/
theorem witness_DwellStepCountsDownAndMovesOn :
    ∀ p ∈ ([(0, 2), (0, 1), (2, 1), (3, 1)] : List (BitVec 2 × Nat)),
      (dwelling p.1 p.2).cfg.wf ∧ (dwelling p.1 p.2).portNow.rst = false ∧ (dwelling p.1 p.2).st = .dwell ∧
      1 ≤ (dwelling p.1 p.2).dwellcnt := by decide

theorem witness_SendCompletesIn25Steps :
    Accepts (offered 0x2000A4) (encode (.send 0xA4)) ∧ (offered 0x2000A4).clk = false ∧ NoReset 25 (offered 0x2000A4) :=
  ⟨accepts_offered _, rfl, noReset_offered _ _⟩

theorem witness_SendRoundTrip :
    Accepts (offered 0x200055) (encode (.send 0x55)) ∧ (offered 0x200055).clk = false ∧ NoReset 25 (offered 0x200055) :=
  ⟨accepts_offered _, rfl, noReset_offered _ _⟩

theorem witness_WriteCompletesIn51Steps :
    Accepts (offered 0x60F901) (encode (.write 0xF9 0x01)) ∧ (offered 0x60F901).clk = false ∧
    NoReset 51 (offered 0x60F901) :=
  ⟨accepts_offered _, rfl, noReset_offered _ _⟩

theorem witness_WriteBracketsSixteenClockPulses :
    Accepts (offered 0x60FF00) (encode (.write 0xFF 0x00)) ∧ NoReset 51 (offered 0x60FF00) :=
  ⟨accepts_offered _, noReset_offered _ _⟩

theorem witness_FrameAppearsAtItsLastMicroStepOnly :
    (MachineInv (shifting .write 48 true) ∧ (shifting .write 48 true).portNow.rst = false ∧
      (shifting .write 48 true).st = .shift ∧ (shifting .write 48 true).opr ≠ .send ∧
      (shifting .write 48 true).upc ≠ 49) ∧
    (MachineInv (shifting .write 49 false) ∧ (shifting .write 49 false).portNow.rst = false ∧
      (shifting .write 49 false).st = .shift ∧ (shifting .write 49 false).opr ≠ .send ∧
      (shifting .write 49 false).upc = 49 ∧
      (next? (step (shifting .write 49 false))).any (fun t => !t.haz1) = true) :=
  ⟨⟨inv_shifting 48 (.inl rfl), by decide⟩, ⟨inv_shifting 49 (.inr rfl), by decide⟩⟩

theorem witness_HandBuiltFrameEqualsWrite :
    (idleAt []).cfg.wf ∧ (idleAt []).st = .idle ∧ (idleAt []).clk = false ∧ (idleAt []).haz1 = false := by decide

theorem witness_RenderSweepsTheFourDigits :
    Accepts (offered 0x87270F) (encode (.render 9999 true 3)) ∧ (offered 0x87270F).clk = false ∧
    NoReset (1 + 4 * (50 + (offered 0x87270F).cfg.dwellTicks)) (offered 0x87270F) ∧
    Accepts (offered 0x802710) (encode (.render 10000 false 0)) ∧ (offered 0x802710).clk = false ∧
    NoReset (1 + 4 * (50 + (offered 0x802710).cfg.dwellTicks)) (offered 0x802710) :=
  ⟨accepts_offered _, rfl, noReset_offered _ _, accepts_offered _, rfl, noReset_offered _ _⟩

/-- The state after 50 steps of a sweep is one step from the first latch edge. -/
theorem sweep_edge : ∃ a b, run 50 (offered 0x8500F5) = .next a ∧ run (50 + 1) (offered 0x8500F5) = .next b ∧
    a.latch = false ∧ b.latch = true := by
  obtain ⟨s, hs, hp⟩ := exists_next (s := offered 0x8500F5)
    (p := fun t => t == { beginStep (offered 0x8500F5) with
      val := 245, dpen := true, dpidx := 1, frame := 0xC001, opr := .render, st := .shift }) (by decide)
  obtain rfl := eq_of_beq hp
  have e := run_frame (s := { beginStep (offered 0x8500F5) with
      val := 245, dpen := true, dpidx := 1, frame := 0xC001, opr := .render, st := .shift })
    (by decide : cfgTest.wf) rfl rfl rfl (.inr rfl) (noReset_of_no_inputs rfl _)
  have e50 := (run_succ_of_step 49 hs).trans e
  refine ⟨_, _, e50, (run_add e50).trans (run_succ_of_step 0 (step_render ?_ rfl rfl rfl)), rfl, rfl⟩
  exact (by decide : cfgTest.wf)

/-- The ranges of the second clause at digit 0 and digit 3, the first and the last step of each; the third clause at the
first step and at the first latch edge. -/
theorem witness_SweepShowsEachDigitInTurn :
    Accepts (offered 0x8500F5) (encode (.render 245 true 1)) ∧ MachineInv (offered 0x8500F5) ∧
    NoReset (1 + 4 * (50 + (offered 0x8500F5).cfg.dwellTicks)) (offered 0x8500F5) ∧
    (0 < 50 + 2 ∧ 51 + (0#2).toNat * (50 + 2) + 0 ≤ 1 + 4 * (50 + 2)) ∧
    (51 < 50 + 2 ∧ 51 + (0#2).toNat * (50 + 2) + 51 ≤ 1 + 4 * (50 + 2)) ∧
    (0 < 50 + 2 ∧ 51 + (3#2).toNat * (50 + 2) + 0 ≤ 1 + 4 * (50 + 2)) ∧
    (2 < 50 + 2 ∧ 51 + (3#2).toNat * (50 + 2) + 2 ≤ 1 + 4 * (50 + 2)) ∧
    (∃ a b, run 0 (offered 0x8500F5) = .next a ∧ run (0 + 1) (offered 0x8500F5) = .next b) ∧
    (∃ a b, run 50 (offered 0x8500F5) = .next a ∧ run (50 + 1) (offered 0x8500F5) = .next b ∧
      a.latch = false ∧ b.latch = true) ∧
    50 + 1 = 51 + (0#2).toNat * (50 + 2) :=
  ⟨accepts_offered _, inv_offered _, noReset_offered _ _, by decide, by decide, by decide, by decide,
    ⟨_, _, rfl, rfl⟩, sweep_edge, by decide⟩

theorem witness_OverflowSweepDiffersInItsStatusOnly :
    (idleAt []).cfg.wf ∧ (idleAt []).st = .idle ∧ (idleAt []).clk = false ∧ 9999 < (10000#16).toNat ∧
    9999 < (65535#16).toNat := by decide

theorem witness_DwellLastsItsCount :
    (MachineInv (dwelling 3 1) ∧ (dwelling 3 1).st = .dwell ∧ NoReset (dwelling 3 1).dwellcnt (dwelling 3 1)) ∧
    (MachineInv (dwelling 0 2) ∧ (dwelling 0 2).st = .dwell ∧ NoReset (dwelling 0 2).dwellcnt (dwelling 0 2) ∧
      1 < (dwelling 0 2).dwellcnt) :=
  ⟨⟨inv_dwelling 3 1 (by decide) (by decide), rfl, noReset_of_no_inputs rfl _⟩,
    ⟨inv_dwelling 0 2 (by decide) (by decide), rfl, noReset_of_no_inputs rfl _, by decide⟩⟩

theorem witness_DisplayShowsTheWrittenPattern :
    Accepts (offered 0x602402) (encode (.write 0x24 0x02)) ∧ (offered 0x602402).clk = false ∧
    NoReset 51 (offered 0x602402) ∧ (offered 0x602402).haz1 = false :=
  ⟨accepts_offered _, rfl, noReset_offered _ _, rfl⟩

theorem witness_EveryCommandIsAnsweredOnceInOrder :
    (idleAt (programPorts cfgTest [0x000007, 0xA00000, 0x2000A4])).cfg.wf ∧
    (idleAt (programPorts cfgTest [0x000007, 0xA00000, 0x2000A4])).st = .idle ∧
    (idleAt (programPorts cfgTest [0x000007, 0xA00000, 0x2000A4])).inputs =
      programPorts cfgTest [0x000007, 0xA00000, 0x2000A4] := ⟨by decide, rfl, rfl⟩

/-- A step that raises the clock line, one that raises the latch line, and a reset. -/
theorem witness_NoStepMakesTwoEdges :
    (∃ t, step (shifting .write 2 false) = .next t ∧ ((shifting .write 2 false).clk == false && t.clk) = true) ∧
    (∃ t, step (shifting .write 49 false) = .next t ∧ ((shifting .write 49 false).latch == false && t.latch) = true) ∧
    (∃ t, step (idleAt [PortSample.reset]) = .next t ∧ (idleAt [PortSample.reset]).portNow.rst = true) :=
  ⟨exists_next (by decide), exists_next (by decide), exists_next (p := fun _ => true) (by decide)⟩

theorem witness_AtMostOneAssignmentPerStep :
    ∃ t, step (shifting .send 24 true) = .next t ∧ ((shifting .send 24 true).portNow.rst == false) = true :=
  exists_next (p := fun _ => (shifting .send 24 true).portNow.rst == false) (by decide)

/-- A step with a rising edge of the clock line, and one without. -/
theorem witness_ShiftStageMovesAtClockEdgesOnly :
    (∃ t, step (shifting .send 2 false) = .next t ∧ (!(shifting .send 2 false).clk && t.clk) = true) ∧
    (∃ t, step (shifting .send 3 true) = .next t ∧ (!(!(shifting .send 3 true).clk && t.clk)) = true) :=
  ⟨exists_next (by decide), exists_next (by decide)⟩

/-- A step with a rising edge of the latch line, and one without, both with no violation recorded. -/
theorem witness_OutputStageMovesAtLatchEdgesOnly :
    (∃ t, step (offered 0x400001) = .next t ∧ (!t.haz1 && !(offered 0x400001).latch && t.latch) = true) ∧
    (∃ t, step (offered 0x400000) = .next t ∧ (!t.haz1 && !(!(offered 0x400000).latch && t.latch)) = true) :=
  ⟨exists_next (by decide), exists_next (by decide)⟩

theorem witness_BusyBlockIgnoresTheCommandPorts :
    (shifting .write 20 true).st ≠ .idle ∧ (PortSample.offer 0x400001).rst = PortSample.quiet.rst ∧
    (dwelling 0 2).st ≠ .idle := by decide

/-- A reset, `ENC` of the digits 0 and 9, a step with no `ENC`, and a step with a response. -/
theorem witness_PatternIsWrittenByEncOnly :
    (∃ t, step (idleAt [PortSample.reset]) = .next t ∧ (idleAt [PortSample.reset]).portNow.rst = true) ∧
    (∃ t, step (offered 0x000000) = .next t ∧ Takes (offered 0x000000) (.enc 0 false)) ∧
    (∃ t, step (offered 0x000019) = .next t ∧ Takes (offered 0x000019) (.enc 9 true)) ∧
    (∃ t, step (idleAt []) = .next t ∧ (idleAt []).portNow.rst = false ∧
      ¬ ∃ d dp, d.toNat < 10 ∧ Takes (idleAt []) (.enc d dp)) ∧
    (∃ t, step (offered 0x000000) = .next t ∧ t.rsp.isSome = true) := by
  refine ⟨exists_next (p := fun _ => true) (by decide), ?_, ?_, ?_, exists_next (by decide)⟩
  · exact (exists_next (s := offered 0x000000) (p := fun _ => true) (by decide)).imp fun t h => ⟨h.1, by unfold Takes; decide⟩
  · exact (exists_next (s := offered 0x000019) (p := fun _ => true) (by decide)).imp fun t h => ⟨h.1, by unfold Takes; decide⟩
  · refine (exists_next (s := idleAt []) (p := fun _ => true) (by decide)).imp fun t h => ⟨h.1, rfl, ?_⟩
    rintro ⟨d, dp, -, hk⟩
    exact absurd hk.2.2.1 (by decide)

/-- A reset, an accept of `RENDER`, and a step without one. -/
theorem witness_ValueRegistersAreWrittenByRenderOnly :
    (∃ t, step (idleAt [PortSample.reset]) = .next t ∧ (idleAt [PortSample.reset]).portNow.rst = true) ∧
    (∃ t, step (offered 0x87270F) = .next t ∧ Takes (offered 0x87270F) (.render 9999 true 3)) ∧
    (∃ t, step (dwelling 0 2) = .next t ∧ (dwelling 0 2).portNow.rst = false ∧
      ¬ ∃ v en ix, Takes (dwelling 0 2) (.render v en ix)) := by
  refine ⟨exists_next (p := fun _ => true) (by decide), ?_, ?_⟩
  · exact (exists_next (s := offered 0x87270F) (p := fun _ => true) (by decide)).imp fun t h => ⟨h.1, by unfold Takes; decide⟩
  · refine (exists_next (s := dwelling 0 2) (p := fun _ => true) (by decide)).imp fun t h => ⟨h.1, rfl, ?_⟩
    rintro ⟨v, en, ix, hk⟩
    exact absurd hk.2.1 (by decide)

/-- A reset, an accept of each operation that writes `FRAME`, the end of a dwell at digits 0 and 2, and no write. -/
theorem witness_FrameIsWrittenAtAcceptAndDwellEndOnly :
    (∃ t, step (idleAt [PortSample.reset]) = .next t ∧ (idleAt [PortSample.reset]).portNow.rst = true) ∧
    (∃ t, step (offered 0x2000A4) = .next t ∧ Takes (offered 0x2000A4) (.send 0xA4)) ∧
    (∃ t, step (offered 0x60F901) = .next t ∧ Takes (offered 0x60F901) (.write 0xF9 0x01)) ∧
    (∃ t, step (offered 0x87270F) = .next t ∧ Takes (offered 0x87270F) (.render 9999 true 3)) ∧
    (∃ t, step (dwelling 0 1) = .next t ∧ EndsDwellBeforeLastDigit (dwelling 0 1)) ∧
    (∃ t, step (dwelling 2 1) = .next t ∧ EndsDwellBeforeLastDigit (dwelling 2 1)) ∧
    (∃ t, step (dwelling 3 1) = .next t ∧ (dwelling 3 1).portNow.rst = false ∧
      ¬ EndsDwellBeforeLastDigit (dwelling 3 1) ∧ ∀ i, ¬ Takes (dwelling 3 1) i) := by
  have h : ∀ s, (next? (step s)).any (fun _ => true) = true → ∃ t, step s = .next t :=
    fun s hs => (exists_next hs).imp fun _ h => h.1
  refine ⟨?_, ?_, ?_, ?_, ?_, ?_, ?_⟩
  · exact (h _ (by decide)).imp fun t e => ⟨e, rfl⟩
  · exact (h _ (by decide)).imp fun t e => ⟨e, by unfold Takes; decide⟩
  · exact (h _ (by decide)).imp fun t e => ⟨e, by unfold Takes; decide⟩
  · exact (h _ (by decide)).imp fun t e => ⟨e, by unfold Takes; decide⟩
  · exact (h _ (by decide)).imp fun t e => ⟨e, by unfold EndsDwellBeforeLastDigit; decide⟩
  · exact (h _ (by decide)).imp fun t e => ⟨e, by unfold EndsDwellBeforeLastDigit; decide⟩
  · exact (h _ (by decide)).imp fun t e => ⟨e, rfl, by unfold EndsDwellBeforeLastDigit; decide,
      fun i hi => absurd hi.2.1 (by decide)⟩

/-- A reset; an accept of `SEND`, `WRITE` and `RENDER`; an idle step that takes none of them; a SHIFT step before the last,
and the last of each operation; a DWELL step before the last, and the last of digits 0, 2 and 3. -/
theorem witness_SequencerRegistersAreWrittenAtTheirEventsOnly :
    (∃ t, step (idleAt [PortSample.reset]) = .next t ∧ (idleAt [PortSample.reset]).portNow.rst = true) ∧
    (∃ t, step (offered 0x2000A4) = .next t ∧ Takes (offered 0x2000A4) (.send 0xA4)) ∧
    (∃ t, step (offered 0x60F901) = .next t ∧ Takes (offered 0x60F901) (.write 0xF9 0x01)) ∧
    (∃ t, step (offered 0x87270F) = .next t ∧ Takes (offered 0x87270F) (.render 9999 true 3)) ∧
    (∃ t, step (offered 0x400001) = .next t ∧ (offered 0x400001).portNow.rst = false ∧ (offered 0x400001).st = .idle ∧
      (¬ ∃ b, Takes (offered 0x400001) (.send b)) ∧ (¬ ∃ g m, Takes (offered 0x400001) (.write g m)) ∧
      (¬ ∃ v en ix, Takes (offered 0x400001) (.render v en ix))) ∧
    (∀ p ∈ ([(.send, 1), (.send, 23), (.send, 24), (.write, 0), (.write, 48), (.write, 49), (.render, 49)] :
        List (Opr × Fin 50)),
      (∃ t, step (shifting p.1 p.2 false) = .next t) ∧ (shifting p.1 p.2 false).portNow.rst = false ∧
      (shifting p.1 p.2 false).st = .shift) ∧
    (∀ p ∈ ([(0, 2), (0, 1), (2, 1), (3, 1)] : List (BitVec 2 × Nat)),
      (∃ t, step (dwelling p.1 p.2) = .next t) ∧ (dwelling p.1 p.2).portNow.rst = false ∧
      (dwelling p.1 p.2).st = .dwell) := by
  have h : ∀ s, (next? (step s)).any (fun _ => true) = true → ∃ t, step s = .next t :=
    fun s hs => (exists_next hs).imp fun _ h => h.1
  have hl : decode (offered 0x400001).portNow.cmd = .ok (.latch true) := by decide
  refine ⟨?_, ?_, ?_, ?_, ?_, ?_, ?_⟩
  · exact (h _ (by decide)).imp fun t e => ⟨e, rfl⟩
  · exact (h _ (by decide)).imp fun t e => ⟨e, by unfold Takes; decide⟩
  · exact (h _ (by decide)).imp fun t e => ⟨e, by unfold Takes; decide⟩
  · exact (h _ (by decide)).imp fun t e => ⟨e, by unfold Takes; decide⟩
  · refine (h _ (by decide)).imp fun t e => ⟨e, rfl, rfl, ?_, ?_, ?_⟩
    · rintro ⟨b, -, -, -, hk⟩
      cases hl.symm.trans hk
    · rintro ⟨g, m, -, -, -, hk⟩
      cases hl.symm.trans hk
    · rintro ⟨v, en, ix, -, -, -, hk⟩
      cases hl.symm.trans hk
  · intro p hp
    refine ⟨h _ ?_, rfl, rfl⟩
    revert p
    decide
  · intro p hp
    refine ⟨h _ ?_, rfl, rfl⟩
    revert p
    decide

/-- A step with a response and a step without one. -/
theorem witness_ResponseWritesStatusAndEndsTheCommand :
    (∃ t, step (offered 0x400000) = .next t ∧ t.rsp.isSome = true) ∧
    (∃ t, step (offered 0x60F901) = .next t ∧ (t.rsp.isNone && !(offered 0x60F901).portNow.rst) = true) :=
  ⟨exists_next (by decide), exists_next (by decide)⟩

/-- A step that records the violation, one that keeps it, and one that does neither. -/
theorem witness_HazardMarkIsRecordedAndKept :
    (∃ t, step { offered 0x2000A4 with latch := true } = .next t ∧ t.haz1 = true) ∧
    (∃ t, step { idleAt [PortSample.reset] with haz1 := true } = .next t ∧ t.haz1 = true) ∧
    (∃ t, step (offered 0x2000A4) = .next t ∧ (!t.haz1) = true) :=
  ⟨exists_next (by decide), exists_next (by decide), exists_next (by decide)⟩

theorem witness_ParametersAreNeverWritten :
    ∃ t, step (idleAt [PortSample.reset]) = .next t ∧ (t.cfg == cfgTest) = true := exists_next (by decide)

/-- A state for each fault. -/
theorem witness_FaultsAreTheUnreachableStates :
    step (shifting .none 20 true) = .fault .shiftWithoutOperation ∧
    step (shifting .send 0 false) = .fault .sendOutsideByte ∧
    step (shifting .send 25 false) = .fault .sendOutsideByte ∧
    step (dwelling 0 0) = .fault .dwellCountZero := ⟨rfl, rfl, rfl, rfl⟩

/-- A configuration for each refusal. -/
theorem witness_OnlyBadConfigurationsAreRefused :
    step { idleAt [] with cfg := { cfgTest with dwellTicks := 0 } } = .refused .badConfiguration ∧
    step { idleAt [] with cfg := { cfgTest with segTab := Vector.replicate 10 0x7F } } = .refused .badConfiguration :=
  ⟨rfl, rfl⟩

theorem witness_ResetMeetsTheInvariant : cfgTest.wf ∧ Config.reference.wf := by decide

/-- The invariant in IDLE, inside a frame and in a dwell. -/
theorem witness_StepKeepsTheInvariant :
    MachineInv (offered 0x60F901) ∧ MachineInv (shifting .write 49 false) ∧ MachineInv (dwelling 2 1) :=
  ⟨inv_offered _, inv_shifting 49 (.inr rfl), inv_dwelling 2 1 (by decide) (by decide)⟩

theorem witness_ReachableStatesAreLegal : cfgTest.wf := by decide

theorem witness_DwellCounterFitsItsWidth : MachineInv (dwelling 0 2) ∧ cfgTest.dwellTicks < 2 ^ 2 :=
  ⟨inv_dwelling 0 2 (by decide) (by decide), by decide⟩

theorem witness_BlockReturnsToIdle :
    MachineInv (dwelling 0 2) ∧ NoReset (4 * (50 + (dwelling 0 2).cfg.dwellTicks)) (dwelling 0 2) :=
  ⟨inv_dwelling 0 2 (by decide) (by decide), noReset_of_no_inputs rfl _⟩

theorem witness_OneDigitIsEnabledUnderRender :
    Accepts (offered 0x8500F5) (encode (.render 245 true 1)) ∧ MachineInv (offered 0x8500F5) ∧
    (offered 0x8500F5).haz1 = false ∧ OnlyRenderEnc (offered 0x8500F5).inputs ∧ NoReset 51 (offered 0x8500F5) ∧
    51 ≤ 51 := by
  refine ⟨accepts_offered _, inv_offered _, rfl, ?_, noReset_offered _ _, by decide⟩
  intro p hp _
  obtain rfl : p = PortSample.offer 0x8500F5 := by simpa [offered, idleAt, State.powerUp] using hp
  exact .inr ⟨245, true, 1, by decide⟩

/-- A state of a dwell, and the state one step before the latch edge of a frame. -/
theorem witness_StepKeepsOneDigitEnabled :
    UnderRender (dwelling 0 2) ∧
    (MachineInv (shifting .render 49 false) ∧ (shifting .render 49 false).haz1 = false ∧
      OnlyRenderEnc (shifting .render 49 false).inputs ∧ (shifting .render 49 false).portNow.rst = false ∧
      (shifting .render 49 false).st = .shift ∧ (shifting .render 49 false).opr = .render ∧
      (shifting .render 49 false).upc = 49) :=
  ⟨⟨inv_dwelling 0 2 (by decide) (by decide), rfl, fun p hp => absurd hp (List.not_mem_nil), fun _ => rfl,
      by unfold OneDigitEnabled; decide⟩,
    inv_shifting_render, rfl, fun p hp => absurd hp (List.not_mem_nil), rfl, rfl, rfl, rfl⟩

end Sys2Proof.Tests
end

section
/-!
The reference parameters and the relations of spec/00_scope.md R9 and R10.
-/
namespace Sys2Proof

/-- With a dwell of 2 ms at 1 MHz, a dwell is 2000 steps (spec/00_scope.md R9). -/
theorem Config.reference_dwellMatchesClock : Config.reference.dwellMatchesClock := by
  simp [Config.dwellMatchesClock, Config.reference, tDwellMs]

/-- The exact margin of spec/00_scope.md R10: a sweep of the reference parameters and the step after it take 8201 of the
16000 microseconds. -/
theorem Config.reference_noFlicker_iff (gapUs : Nat) : Config.reference.noFlicker gapUs ↔ gapUs < 7799 := by
  simp only [Config.noFlicker, Config.reference]
  omega

/-- Settles O57, from the exact margin of 7799 microseconds, which lies between the two gaps. -/
theorem referenceParametersDoNotFlicker : Obligations.ReferenceParametersDoNotFlicker := by
  have gap7ms : Config.reference.noFlicker 7000 := (Config.reference_noFlicker_iff 7000).mpr (by decide)
  have gap8ms : ¬ Config.reference.noFlicker 8000 := mt (Config.reference_noFlicker_iff 8000).mp (by decide)
  exact ⟨Config.reference_dwellMatchesClock, gap7ms, gap8ms⟩

end Sys2Proof
end

section
/-!
The events of a step: the rows of spec/43_display_multiplexer.md R172 with the accepted word taken apart, as one
inductive relation, so that a statement over every step is a case split over the events.
-/
namespace Sys2Proof.Machine

variable {s t : State}

/-- `StepEvent s t`: what a step from `s` that answers `t` was, one constructor per row of R172 and kind of word. -/
inductive StepEvent (s : State) : State → Prop
  /-- Row 1. -/
  | reset (hr : s.portNow.rst = true) : StepEvent s (resetBlock (beginStep s))
  /-- Row 2. -/
  | quiet (hr : s.portNow.rst = false) (hs : s.st = .idle) (hv : s.portNow.cmdValid = false) :
      StepEvent s (beginStep s)
  /-- Row 3: a word that is no operation. -/
  | illegal {e : IllegalWord} (hr : s.portNow.rst = false) (hs : s.st = .idle) (hv : s.portNow.cmdValid = true)
      (hw : decode s.portNow.cmd = .error e) : StepEvent s (done .illegalCmd (beginStep s))
  /-- `ENC` of a digit from 10 to 15. -/
  | encRejected {d : BitVec 4} {dp : Bool} (hT : Takes s (.enc d dp)) (hd : ¬ d.toNat < 10) :
      StepEvent s (done .invalidDigit (beginStep s))
  /-- `ENC` of a digit from 0 to 9. -/
  | enc {d : BitVec 4} {dp : Bool} (hT : Takes s (.enc d dp)) (hd : d.toNat < 10) :
      StepEvent s (respond .ok (encodeDigit s.cfg ⟨d.toNat, hd⟩ dp)
        { beginStep s with pattern := encodeDigit s.cfg ⟨d.toNat, hd⟩ dp })
  /-- `LATCH`. -/
  | latch {l : Bool} (hT : Takes s (.latch l)) :
      StepEvent s (respond .ok s.pattern (assignPin .latch l (beginStep s)))
  /-- The accept of `SEND`. -/
  | send {b : Byte} (hT : Takes s (.send b)) :
      StepEvent s { beginStep s with
        frame := b ++ 0#8, opr := .send, upc := 1, st := .shift, haz1 := s.haz1 || s.latch }
  /-- The accept of `WRITE`. -/
  | write {g m : Byte} (hT : Takes s (.write g m)) :
      StepEvent s { beginStep s with frame := g ++ m, opr := .write, upc := 0, st := .shift }
  /-- The accept of `RENDER`. -/
  | render {v : Word} {en : Bool} {ix : BitVec 2} (hT : Takes s (.render v en ix)) :
      StepEvent s { beginStep s with
        val := v, dpen := en, dpidx := ix, didx := 0, frame := frameFor s.cfg v en ix 0
        opr := .render, upc := 0, st := .shift }
  /-- A micro-step that is not the last of its byte or frame. -/
  | advance {p : Pin} {b : Bool} (hr : s.portNow.rst = false) (hs : s.st = .shift)
      (ho : (s.opr = .send ∧ 1 ≤ s.upc.val ∧ s.upc.val < 24) ∨ s.opr = .write ∨ s.opr = .render)
      (hu : s.upc.val < 49) (hp : frameUop s.upc.val (beginStep s) = assignPin p b (beginStep s)) :
      StepEvent s (pinStep p b s)
  /-- The last micro-step of `SEND`. -/
  | sendEnd (hr : s.portNow.rst = false) (hs : s.st = .shift) (ho : s.opr = .send) (hu : s.upc = 24) :
      StepEvent s (done .ok (assignPin .clk false (beginStep s)))
  /-- The last micro-step of `WRITE`. -/
  | writeEnd (hr : s.portNow.rst = false) (hs : s.st = .shift) (ho : s.opr = .write) (hu : s.upc = 49) :
      StepEvent s (done .ok (assignPin .latch true (beginStep s)))
  /-- The last micro-step of a frame of `RENDER`. -/
  | startDwell (hr : s.portNow.rst = false) (hs : s.st = .shift) (ho : s.opr = .render) (hu : s.upc = 49) :
      StepEvent s { assignPin .latch true (beginStep s) with dwellcnt := s.cfg.dwellTicks, st := .dwell }
  /-- A DWELL step that is not the last of its dwell. -/
  | dwell (hr : s.portNow.rst = false) (hs : s.st = .dwell) (hn : 1 < s.dwellcnt) :
      StepEvent s { beginStep s with dwellcnt := s.dwellcnt - 1 }
  /-- The last step of the dwell of digit 0, 1 or 2. -/
  | nextDigit (hE : EndsDwellBeforeLastDigit s) :
      StepEvent s { beginStep s with
        dwellcnt := 0, didx := s.didx + 1, frame := frameFor s.cfg s.val s.dpen s.dpidx (s.didx + 1)
        upc := 0, st := .shift }
  /-- The last step of a sweep. -/
  | sweepEnd (hr : s.portNow.rst = false) (hs : s.st = .dwell) (hn : s.dwellcnt = 1) (hd : s.didx = 3) :
      StepEvent s (done (renderStatus s.val) { beginStep s with dwellcnt := 0 })

/-- A step that takes an instruction runs its meaning. -/
theorem step_takes {i : Instr} (hc : s.cfg.wf) (hT : Takes s i) : step s = exec i (beginStep s) := by
  obtain ⟨hr, hs, hv, hw⟩ := hT
  simp [step_accept ⟨hc, hs, hr, hv, rfl⟩, accept, hw]

/-- An accept step is one of the accept events. -/
theorem StepEvent.of_accept (hr : s.portNow.rst = false) (hs : s.st = .idle) (hv : s.portNow.cmdValid = true)
    (h : accept s.portNow.cmd (beginStep s) = .next t) : StepEvent s t := by
  have takes {i : Instr} (hw : decode s.portNow.cmd = .ok i) : Takes s i := ⟨hr, hs, hv, hw⟩
  rcases accept_cases h with ⟨e, hw, rfl⟩ | ⟨d, dp, hw, hd, rfl⟩ | ⟨d, dp, hd, hw, rfl⟩ | ⟨b, hw, rfl⟩ | ⟨l, hw, rfl⟩ |
    ⟨g, m, hw, rfl⟩ | ⟨v, en, ix, hw, rfl⟩
  · exact .illegal hr hs hv hw
  · exact .encRejected (takes hw) hd
  · exact .enc (takes hw) hd
  · exact .send (takes hw)
  · exact .latch (takes hw)
  · exact .write (takes hw)
  · exact .render (takes hw)

/-- A frame micro-step below 49 that advances `UPC` is an advance event. -/
theorem StepEvent.of_advance (hr : s.portNow.rst = false) (hs : s.st = .shift)
    (ho : (s.opr = .send ∧ 1 ≤ s.upc.val ∧ s.upc.val < 24) ∨ s.opr = .write ∨ s.opr = .render)
    (hu : s.upc.val < 49) : StepEvent s { frameUop s.upc.val (beginStep s) with upc := s.upc + 1 } := by
  obtain ⟨p, b, hp⟩ := frameUop_assigns s.upc.val (beginStep s)
  rw [hp]
  exact .advance hr hs ho hu hp

theorem StepEvent.of_sendMicroStep (hr : s.portNow.rst = false) (hs : s.st = .shift) (ho : s.opr = .send)
    (h1 : 1 ≤ s.upc.val) (h2 : s.upc.val ≤ 24) : StepEvent s (sendMicroStep (beginStep s)) := by
  by_cases hu : s.upc = 24
  · rw [sendMicroStep_last (by simpa using hu)]
    exact .sendEnd hr hs ho hu
  · have hlt : s.upc.val < 24 := by omega
    rw [sendMicroStep_of_lt (by simpa using hu), beginStep_upc, ← frameUop_inner h1 (by omega)]
    exact .of_advance hr hs (.inl ⟨ho, h1, hlt⟩) (by omega)

theorem StepEvent.of_writeMicroStep (hr : s.portNow.rst = false) (hs : s.st = .shift) (ho : s.opr = .write) :
    StepEvent s (writeMicroStep (beginStep s)) := by
  by_cases hu : s.upc = 49
  · rw [writeMicroStep_last (by simpa using hu)]
    exact .writeEnd hr hs ho hu
  · rw [writeMicroStep_of_lt (by simpa using hu), beginStep_upc]
    exact .of_advance hr hs (.inr (.inl ho)) (by omega)

theorem StepEvent.of_renderMicroStep (hr : s.portNow.rst = false) (hs : s.st = .shift) (ho : s.opr = .render) :
    StepEvent s (renderMicroStep (beginStep s)) := by
  by_cases hu : s.upc = 49
  · rw [renderMicroStep_last (by simpa using hu)]
    exact .startDwell hr hs ho hu
  · rw [renderMicroStep_of_lt (by simpa using hu), beginStep_upc]
    exact .of_advance hr hs (.inr (.inr ho)) (by omega)

theorem StepEvent.of_dwellTick (hr : s.portNow.rst = false) (hs : s.st = .dwell) (hn : s.dwellcnt ≠ 0) :
    StepEvent s (dwellTick (beginStep s)) := by
  by_cases h1 : s.dwellcnt = 1
  · by_cases hd : s.didx = 3
    · rw [dwellTick_last (s := beginStep s) h1 hd]
      exact .sweepEnd hr hs h1 hd
    · rw [dwellTick_nextDigit (s := beginStep s) h1 hd]
      exact .nextDigit ⟨hr, hs, h1, hd⟩
  · rw [dwellTick_of_ne (s := beginStep s) h1]
    exact .dwell hr hs (by omega)

/-- Every step that answers a next state is one of the events. -/
theorem step_event (h : step s = .next t) : StepEvent s t := by
  obtain ⟨-, h⟩ := step_cases h
  rcases h with ⟨hr, rfl⟩ | ⟨hr, hs, hv, rfl⟩ | ⟨hr, hs, hv, ha⟩ | ⟨hr, hs, ho, h1, h2, rfl⟩ | ⟨hr, hs, ho, rfl⟩ |
    ⟨hr, hs, ho, rfl⟩ | ⟨hr, hs, hn, rfl⟩
  · exact .reset hr
  · exact .quiet hr hs hv
  · exact .of_accept hr hs hv ha
  · exact .of_sendMicroStep hr hs ho h1 h2
  · exact .of_writeMicroStep hr hs ho
  · exact .of_renderMicroStep hr hs ho
  · exact .of_dwellTick hr hs hn

/-! ### The state after a step whose event is known -/

theorem next_of_reset (h : step s = .next t) (hr : s.portNow.rst = true) : t = resetBlock (beginStep s) := by
  obtain ⟨hc, -⟩ := step_cases h
  simpa [step_reset hc hr] using h.symm

theorem exec_of_takes {i : Instr} (h : step s = .next t) (hT : Takes s i) : exec i (beginStep s) = .next t := by
  obtain ⟨hc, -⟩ := step_cases h
  exact (step_takes hc hT).symm.trans h

theorem next_of_enc {d : BitVec 4} {dp : Bool} (h : step s = .next t) (hT : Takes s (.enc d dp)) (hd : d.toNat < 10) :
    t = respond .ok (encodeDigit s.cfg ⟨d.toNat, hd⟩ dp)
      { beginStep s with pattern := encodeDigit s.cfg ⟨d.toNat, hd⟩ dp } := by
  simpa [exec, execEnc_valid hd] using (exec_of_takes h hT).symm

theorem next_of_send {b : Byte} (h : step s = .next t) (hT : Takes s (.send b)) :
    t = { beginStep s with
      frame := b ++ 0#8, opr := .send, upc := 1, st := .shift, haz1 := s.haz1 || s.latch } := by
  simpa [exec, execSend] using (exec_of_takes h hT).symm

theorem next_of_write {g m : Byte} (h : step s = .next t) (hT : Takes s (.write g m)) :
    t = { beginStep s with frame := g ++ m, opr := .write, upc := 0, st := .shift } := by
  simpa [exec, execWrite] using (exec_of_takes h hT).symm

theorem next_of_render {v : Word} {en : Bool} {ix : BitVec 2} (h : step s = .next t)
    (hT : Takes s (.render v en ix)) :
    t = { beginStep s with
      val := v, dpen := en, dpidx := ix, didx := 0, frame := frameFor s.cfg v en ix 0
      opr := .render, upc := 0, st := .shift } := by
  simpa [exec, execRender] using (exec_of_takes h hT).symm

theorem next_of_endsDwell (h : step s = .next t) (hE : EndsDwellBeforeLastDigit s) :
    t = { beginStep s with
      dwellcnt := 0, didx := s.didx + 1, frame := frameFor s.cfg s.val s.dpen s.dpidx (s.didx + 1)
      upc := 0, st := .shift } := by
  obtain ⟨hr, hs, h1, hd⟩ := hE
  obtain ⟨hc, -⟩ := step_cases h
  rw [step_dwell hc hr hs (by omega), dwellTick_nextDigit (by simpa using h1) (by simpa using hd)] at h
  simpa using h.symm

end Sys2Proof.Machine
end

section
/-!
The invariant of the machine (spec/10_state.md R39): it holds after reset, every step keeps it, no step from a state
that meets it stops, and what follows for runs and for the width of the dwell counter. Its part without the lines is
kept on its own, so that it serves from states whose lines are not known.
-/
namespace Sys2Proof.Machine

variable {s t : State}

/-! ### Where no step stops -/

/-- What R39 says of `ST`, `OPR`, `UPC` and `DWELLCNT` without the lines: in SHIFT an operation is in progress, inside
its byte when it is `SEND`, and a dwell is one of `RENDER` with a count that is not 0. -/
structure ControlLegal (s : State) : Prop where
  cfgWf : s.cfg.wf
  shift : s.st = .shift → (s.opr = .send ∧ 1 ≤ s.upc.val ∧ s.upc.val ≤ 24) ∨ s.opr = .write ∨ s.opr = .render
  dwell : s.st = .dwell → s.opr = .render ∧ s.dwellcnt ≠ 0

/-- An accept step answers a next state. -/
theorem accept_next (w : CmdWord) (s : State) : ∃ t, accept w s = .next t := by
  unfold accept
  split
  · exact exec_next _ s
  · exact ⟨_, rfl⟩

/-- No step from such a state faults or is refused. -/
theorem ControlLegal.next (h : ControlLegal s) : ∃ t, step s = .next t := by
  obtain ⟨hc, hshift, hdwell⟩ := h
  cases hr : s.portNow.rst with
  | true => exact ⟨_, step_reset hc hr⟩
  | false =>
    cases hs : s.st with
    | idle =>
      cases hv : s.portNow.cmdValid with
      | false => exact ⟨_, step_idle hc hr hs hv⟩
      | true =>
        rw [step_accept ⟨hc, hs, hr, hv, rfl⟩]
        exact accept_next _ _
    | shift =>
      rcases hshift hs with ⟨ho, h1, h2⟩ | ho | ho
      · exact ⟨_, step_send hc hr hs ho h1 h2⟩
      · exact ⟨_, step_write hc hr hs ho⟩
      · exact ⟨_, step_render hc hr hs ho⟩
    | dwell => exact ⟨_, step_dwell hc hr hs (hdwell hs).2⟩

theorem MachineInv.controlLegal (hi : MachineInv s) : ControlLegal s where
  cfgWf := hi.cfgWf
  shift hs := by
    rcases hi.legal.shiftOpr hs with ho | ho
    · exact .inl ⟨ho, hi.legal.sendUpc hs ho⟩
    · exact .inr ho
  dwell hs := by
    obtain ⟨ho, -, -, h1, -⟩ := hi.legal.dwell hs
    exact ⟨ho, by omega⟩

/-- Every event keeps the control part of the invariant. -/
theorem ControlLegal.event (hL : ControlLegal s) (h : StepEvent s t) : ControlLegal t := by
  have hc := hL.cfgWf
  cases h with
  | reset | sendEnd | writeEnd | sweepEnd => exact ⟨by simpa using hc, by simp, by simp⟩
  | quiet _ hs | illegal _ hs => exact ⟨by simpa using hc, by simp [hs], by simp [hs]⟩
  | encRejected hT | enc hT | latch hT =>
    obtain ⟨-, hs, -, -⟩ := hT
    exact ⟨by simpa using hc, by simp [hs], by simp [hs]⟩
  | send | write | render => exact ⟨hc, by simp, by simp⟩
  | advance _ hs ho hu =>
    refine ⟨by simpa using hc, fun _ => ?_, by simp [hs]⟩
    rcases ho with ⟨ho, -, h24⟩ | ho
    · exact .inl ⟨by simpa using ho, by simp [upc_succ_val hu], by simpa [upc_succ_val hu] using h24⟩
    · exact .inr (by simpa using ho)
  | startDwell _ _ ho =>
    obtain ⟨hticks, -⟩ := hc
    exact ⟨by simpa using hL.cfgWf, by simp, fun _ => ⟨by simpa using ho, by simp; omega⟩⟩
  | dwell _ hs hn =>
    obtain ⟨ho, -⟩ := hL.dwell hs
    exact ⟨hc, by simp [hs], fun _ => ⟨ho, by simp; omega⟩⟩
  | nextDigit hE =>
    obtain ⟨-, hs, -, -⟩ := hE
    obtain ⟨ho, -⟩ := hL.dwell hs
    exact ⟨hc, fun _ => .inr (.inr ho), by simp⟩

/-! ### Every event keeps the invariant -/

/-- At the start of a byte or a frame the invariant asks for a low clock line, a dwell counter at 0 and the right
frame. -/
theorem MachineInv.of_shiftStart (hc : s.cfg.wf) (hs : s.st = .shift)
    (ho : (s.opr = .send ∧ s.upc = 1) ∨ ((s.opr = .write ∨ s.opr = .render) ∧ s.upc = 0))
    (hn : s.dwellcnt = 0) (hclk : s.clk = false)
    (hf : s.opr = .render → s.frame = frameFor s.cfg s.val s.dpen s.dpidx s.didx) : MachineInv s where
  cfgWf := hc
  legal :=
    { stCode := by simp [hs, St.code]
      upc := by omega
      cnt := by omega
      dwell := by simp [hs]
      shiftOpr := fun _ => by
        rcases ho with ⟨ho, -⟩ | ⟨ho, -⟩
        · exact .inl ho
        · exact .inr ho
      sendUpc := fun _ hsend => by
        rcases ho with ⟨-, hu⟩ | ⟨ho, -⟩
        · simp [hu]
        · simp [hsend] at ho
      idleClk := by simp [hs] }
  cntZero _ := hn
  shiftTracks _ := by
    have hu : s.upc.val ≤ 1 := by rcases ho with ⟨-, hu⟩ | ⟨-, hu⟩ <;> simp [hu]
    exact ⟨by rw [hclk]; simp; omega, by omega, fun j hj => by omega⟩
  frameLatch _ hne h1 := by
    rcases ho with ⟨ho, -⟩ | ⟨-, hu⟩
    · exact absurd ho hne
    · simp [hu] at h1
  renderFrame _ hr := hf hr
  dwellUpc := by simp [hs]
  dwellData := by simp [hs]
  dwellSr := by simp [hs]
  dwellOut := by simp [hs]

/-- A micro-step that is not the last of its byte or frame keeps the invariant. -/
theorem MachineInv.advance {p : Pin} {b : Bool} (hi : MachineInv s) (hs : s.st = .shift)
    (ho : (s.opr = .send ∧ 1 ≤ s.upc.val ∧ s.upc.val < 24) ∨ s.opr = .write ∨ s.opr = .render)
    (hu : s.upc.val < 49) (hp : frameUop s.upc.val (beginStep s) = assignPin p b (beginStep s)) :
    MachineInv (pinStep p b s) := by
  rw [pinStep, ← hp]
  by_cases h0 : s.upc = 0
  · have hne : s.opr ≠ .send := by
      intro hsend
      simp [hsend, h0] at ho
    simpa [h0] using hi.frameStart hs h0 hne
  · have h1 : 1 ≤ s.upc.val := by omega
    rw [frameUop_inner h1 (by omega)]
    refine hi.shiftUop hs h1 hu fun hsend => ?_
    simp [hsend] at ho
    omega

/-- The micro-step that raises the latch line of a frame of `RENDER` keeps the invariant: the output stage takes the
whole frame. -/
theorem MachineInv.startDwell (hi : MachineInv s) (hs : s.st = .shift) (ho : s.opr = .render) (hu : s.upc = 49) :
    MachineInv { assignPin .latch true (beginStep s) with dwellcnt := s.cfg.dwellTicks, st := .dwell } := by
  obtain ⟨hsr, hclk, hdata⟩ := hi.frameEnd hs hu
  have hlatch : s.latch = false := hi.frameLatch hs (by simp [ho]) (by simp [hu])
  have hf := hi.renderFrame (by simp [hs]) ho
  obtain ⟨hticks, htab⟩ := hi.cfgWf
  exact
    { cfgWf := ⟨by simpa using hticks, by simpa using htab⟩
      legal := ⟨by simp [St.code], by simp [hu], by simp, by simp [ho, hclk, hticks], by simp, by simp, by simp⟩
      cntZero := by simp
      shiftTracks := by simp
      frameLatch := by simp
      renderFrame _ _ := by simpa using hf
      dwellUpc := by simp [hu]
      dwellData := by simp [hdata]
      dwellSr := by simp [hsr]
      dwellOut := by simp [hlatch, hsr] }

/-- A DWELL step that is not the last of its dwell keeps the invariant. -/
theorem MachineInv.dwellStep (hi : MachineInv s) (hs : s.st = .dwell) (hn : 1 < s.dwellcnt) :
    MachineInv { beginStep s with dwellcnt := s.dwellcnt - 1 } := by
  obtain ⟨ho, hlatch, hclk, -, hle⟩ := hi.legal.dwell hs
  have hlegal : SequencerLegal { beginStep s with dwellcnt := s.dwellcnt - 1 } :=
    ⟨by simp [hs, St.code], by simpa using hi.legal.upc, by simp; omega,
      fun _ => ⟨ho, hlatch, hclk, by simp; omega, by simp; omega⟩, by simp [hs], by simp [hs], by simp [hs]⟩
  exact
    { cfgWf := hi.cfgWf
      legal := hlegal
      cntZero := by simp [hs]
      shiftTracks := by simp [hs]
      frameLatch := by simp [hs]
      renderFrame := hi.renderFrame
      dwellUpc := hi.dwellUpc
      dwellData := hi.dwellData
      dwellSr := hi.dwellSr
      dwellOut := hi.dwellOut }

/-- In IDLE the clock line is low and the dwell counter is 0. -/
theorem MachineInv.idle (hi : MachineInv s) (hs : s.st = .idle) : s.clk = false ∧ s.dwellcnt = 0 :=
  ⟨hi.legal.idleClk hs, hi.cntZero (by simp [hs])⟩

/-- Every event keeps the invariant. -/
theorem MachineInv.event (hi : MachineInv s) (h : StepEvent s t) : MachineInv t := by
  have hc := hi.cfgWf
  cases h with
  | reset => exact .of_idle (by simpa using hc) (by simp) (by simp) (by simp)
  | quiet _ hs | illegal _ hs =>
    obtain ⟨hclk, hn⟩ := hi.idle hs
    exact .of_idle (by simpa using hc) (by simp [hs]) (by simpa using hn) (by simpa using hclk)
  | encRejected hT | enc hT | latch hT =>
    obtain ⟨-, hs, -, -⟩ := hT
    obtain ⟨hclk, hn⟩ := hi.idle hs
    exact .of_idle (by simpa using hc) (by simp [hs]) (by simpa using hn) (by simpa using hclk)
  | send hT | write hT | render hT =>
    obtain ⟨-, hs, -, -⟩ := hT
    obtain ⟨hclk, hn⟩ := hi.idle hs
    exact .of_shiftStart hc rfl (by simp) hn hclk (by simp)
  | advance _ hs ho hu hp => exact hi.advance hs ho hu hp
  | sendEnd _ hs =>
    have hn : s.dwellcnt = 0 := hi.cntZero (by simp [hs])
    exact .of_idle (by simpa using hc) (by simp) (by simpa using hn) (by simp)
  | writeEnd _ hs _ hu =>
    have hn : s.dwellcnt = 0 := hi.cntZero (by simp [hs])
    obtain ⟨-, hclk, -⟩ := hi.frameEnd hs hu
    exact .of_idle (by simpa using hc) (by simp) (by simpa using hn) (by simpa using hclk)
  | startDwell _ hs ho hu => exact hi.startDwell hs ho hu
  | dwell _ hs hn => exact hi.dwellStep hs hn
  | nextDigit hE =>
    obtain ⟨-, hs, -, -⟩ := hE
    obtain ⟨ho, -, hclk, -⟩ := hi.legal.dwell hs
    exact .of_shiftStart hc rfl (.inr ⟨.inr ho, rfl⟩) rfl hclk (fun _ => rfl)
  | sweepEnd _ hs =>
    obtain ⟨-, -, hclk, -⟩ := hi.legal.dwell hs
    exact .of_idle (by simpa using hc) (by simp) (by simp) (by simpa using hclk)

/-! ### The statements -/

/-- Settles O52: no step from a state of the invariant stops, and every event keeps it. -/
theorem stepKeepsTheInvariant : Obligations.StepKeepsTheInvariant := by
  intro s hi
  obtain ⟨t, h⟩ := hi.controlLegal.next
  exact ⟨t, h, hi.event (step_event h)⟩

/-- Settles O51: after reset the block is IDLE with its clock line low. -/
theorem resetMeetsTheInvariant : Obligations.ResetMeetsTheInvariant := by
  intro c sr out ps hc
  exact .of_idle hc rfl rfl rfl

/-- Settles O53, by induction on the length of the run with the invariant of O52. -/
theorem reachableStatesAreLegal : Obligations.ReachableStatesAreLegal := by
  intro c sr out ps k hc
  obtain ⟨t, hrun, hi⟩ := run_total stepKeepsTheInvariant k (resetMeetsTheInvariant c sr out ps hc)
  exact ⟨t, hrun, hi.legal⟩

/-- `W_DWELL` bits hold `DWELL_TICKS`, and fewer do not (spec/00_scope.md R9). -/
theorem wDwell_le_iff (c : Config) (n : Nat) : c.wDwell ≤ n ↔ c.dwellTicks < 2 ^ n := by
  by_cases h0 : c.dwellTicks = 0
  · simp [Config.wDwell, h0]
  · rw [Config.wDwell, if_neg h0, Nat.succ_le_iff, Nat.log2_lt h0]

/-- Settles O54: under the invariant the counter is at most `DWELL_TICKS`, whose least width `W_DWELL` is. -/
theorem dwellCounterFitsItsWidth : Obligations.DwellCounterFitsItsWidth := by
  have fits (c : Config) : c.dwellTicks < 2 ^ c.wDwell := (wDwell_le_iff c _).mp le_rfl
  refine ⟨fun s hi => hi.legal.cnt.trans_lt (fits s.cfg), fun c => ⟨fits c, fun n => (wDwell_le_iff c n).mpr⟩, ?_⟩
  decide

end Sys2Proof.Machine
end

section
/-!
Who writes which register, over every step of the machine (spec/10_state.md R21 to R31, R34, R37). Each frame clause is
a case split over the events: the event that writes is excluded by its premise, every other one leaves the register.
-/
namespace Sys2Proof.Machine

variable {s t : State}

/-- A step other than a reset and a successful `ENC` leaves `PATTERN` (spec/10_state.md R24). -/
theorem StepEvent.pattern_eq (h : StepEvent s t) (hr : s.portNow.rst = false)
    (hno : ¬ ∃ (d : BitVec 4) (dp : Bool), d.toNat < 10 ∧ Takes s (.enc d dp)) : t.pattern = s.pattern := by
  cases h with
  | reset hrst => simp [hr] at hrst
  | enc hT hd => exact absurd ⟨_, _, hd, hT⟩ hno
  | _ => simp

/-- A response carries `PATTERN`, and the block is IDLE in its step (spec/10_state.md R35). -/
theorem StepEvent.response {r : Response} (h : StepEvent s t) (hrsp : t.rsp = some r) :
    s.portNow.rst = false ∧ t.st = .idle ∧ t.status = r.status ∧ r.pattern = t.pattern ∧
      t.rspLog = s.rspLog ++ [⟨s.stepNo + 1, r⟩] := by
  cases h with
  | illegal hr hs | sendEnd hr hs | writeEnd hr hs | sweepEnd hr hs =>
    simp at hrsp
    simp [← hrsp, hr]
  | encRejected hT | enc hT | latch hT =>
    obtain ⟨hr, hs, -, -⟩ := hT
    simp at hrsp
    simp [← hrsp, hr, hs]
  | _ => simp at hrsp

/-- A step without a response and without reset writes neither `STATUS` nor `RSPLOG` (spec/10_state.md R31, R37). -/
theorem StepEvent.noResponse (h : StepEvent s t) (hrsp : t.rsp = none) (hr : s.portNow.rst = false) :
    t.status = s.status ∧ t.rspLog = s.rspLog := by
  cases h with
  | reset hrst => simp [hr] at hrst
  | illegal | encRejected | enc | latch | sendEnd | writeEnd | sweepEnd => simp at hrsp
  | _ => simp

/-- A step other than a reset and the accept of `RENDER` leaves the value registers (spec/10_state.md R21, R22). -/
theorem StepEvent.value_eq (h : StepEvent s t) (hr : s.portNow.rst = false)
    (hno : ¬ ∃ v en ix, Takes s (.render v en ix)) : t.val = s.val ∧ t.dpen = s.dpen ∧ t.dpidx = s.dpidx := by
  cases h with
  | reset hrst => simp [hr] at hrst
  | render hT => exact absurd ⟨_, _, _, hT⟩ hno
  | _ => simp

/-- A step other than a reset, the three accepts and the end of a dwell leaves `FRAME` (spec/10_state.md R23). -/
theorem StepEvent.frame_eq (h : StepEvent s t) (hr : s.portNow.rst = false) (hnoEnd : ¬ EndsDwellBeforeLastDigit s)
    (hnoSend : ¬ ∃ b, Takes s (.send b)) (hnoWrite : ¬ ∃ g m, Takes s (.write g m))
    (hnoRender : ¬ ∃ v en ix, Takes s (.render v en ix)) : t.frame = s.frame := by
  cases h with
  | reset hrst => simp [hr] at hrst
  | send hT => exact absurd ⟨_, hT⟩ hnoSend
  | write hT => exact absurd ⟨_, _, hT⟩ hnoWrite
  | render hT => exact absurd ⟨_, _, _, hT⟩ hnoRender
  | nextDigit hE => exact absurd hE hnoEnd
  | _ => simp

/-- No event writes the parameters, and each takes one port sample (spec/10_state.md R37). -/
theorem StepEvent.cfg_inputs (h : StepEvent s t) : t.cfg = s.cfg ∧ t.inputs = s.inputs.tail := by
  cases h <;> simp

/-! ### The sequencer's registers, by the state a step starts in -/

/-- An IDLE step that is no reset and no accept of a long operation leaves the sequencer's registers. -/
theorem StepEvent.sequencer_eq_of_idle (h : StepEvent s t) (hr : s.portNow.rst = false) (hs : s.st = .idle)
    (hnoSend : ¬ ∃ b, Takes s (.send b)) (hnoWrite : ¬ ∃ g m, Takes s (.write g m))
    (hnoRender : ¬ ∃ v en ix, Takes s (.render v en ix)) :
    t.st = .idle ∧ t.opr = s.opr ∧ t.didx = s.didx ∧ t.upc = s.upc ∧ t.dwellcnt = s.dwellcnt := by
  cases h with
  | reset hrst => simp [hr] at hrst
  | send hT => exact absurd ⟨_, hT⟩ hnoSend
  | write hT => exact absurd ⟨_, _, hT⟩ hnoWrite
  | render hT => exact absurd ⟨_, _, _, hT⟩ hnoRender
  | nextDigit hE => simp [EndsDwellBeforeLastDigit, hs] at hE
  | advance _ hs' | sendEnd _ hs' | writeEnd _ hs' | startDwell _ hs' | dwell _ hs' | sweepEnd _ hs' =>
    simp [hs] at hs'
  | quiet | illegal | encRejected | enc | latch => simp [hs]

/-- A SHIFT step advances `UPC`, ends its operation, or starts a dwell (spec/43_display_multiplexer.md R172). -/
theorem StepEvent.sequencer_of_shift (h : StepEvent s t) (hr : s.portNow.rst = false) (hs : s.st = .shift) :
    t.opr = s.opr ∧ t.didx = s.didx ∧
      (¬ (s.opr = .send ∧ s.upc.val = 24) → s.upc.val ≠ 49 →
        t.st = .shift ∧ t.upc.val = s.upc.val + 1 ∧ t.dwellcnt = s.dwellcnt) ∧
      ((s.opr = .send ∧ s.upc.val = 24) ∨ (s.opr = .write ∧ s.upc.val = 49) →
        t.st = .idle ∧ t.upc = s.upc ∧ t.dwellcnt = s.dwellcnt ∧ t.rsp ≠ none) ∧
      (s.opr = .render → s.upc.val = 49 →
        t.st = .dwell ∧ t.upc = s.upc ∧ t.dwellcnt = s.cfg.dwellTicks ∧ t.latch = true) := by
  cases h with
  | reset hrst => simp [hr] at hrst
  | quiet _ hs' | illegal _ hs' | dwell _ hs' | sweepEnd _ hs' => simp [hs] at hs'
  | encRejected hT | enc hT | latch hT | send hT | write hT | render hT => simp [Takes, hs] at hT
  | nextDigit hE => simp [EndsDwellBeforeLastDigit, hs] at hE
  | advance _ _ ho hu _ =>
    refine ⟨by simp, by simp, fun _ _ => ⟨by simp [hs], by simpa using upc_succ_val hu, by simp⟩, ?_, ?_⟩
    · rintro (⟨hsend, h24⟩ | ⟨-, h49⟩)
      · simp [hsend, h24] at ho
      · omega
    · intro _ h49
      omega
  | sendEnd _ _ ho hu => simp [ho, hu]
  | writeEnd _ _ ho hu => simp [ho, hu]
  | startDwell _ _ ho hu => simp [ho, hu]

/-- The index of the next digit. -/
theorem didx_succ_toNat : ∀ {i : BitVec 2}, i ≠ 3 → (i + 1).toNat = i.toNat + 1 := by decide

/-- A DWELL step counts down, and at 1 goes to the next digit or ends the sweep (spec/43_display_multiplexer.md R165). -/
theorem StepEvent.sequencer_of_dwell (h : StepEvent s t) (hr : s.portNow.rst = false) (hs : s.st = .dwell) :
    t.opr = s.opr ∧ t.dwellcnt + 1 = s.dwellcnt ∧
      (s.dwellcnt ≠ 1 → t.st = .dwell ∧ t.didx = s.didx ∧ t.upc = s.upc) ∧
      (s.dwellcnt = 1 → s.didx ≠ 3 → t.st = .shift ∧ t.didx.toNat = s.didx.toNat + 1 ∧ t.upc = 0) ∧
      (s.dwellcnt = 1 → s.didx = 3 → t.st = .idle ∧ t.didx = s.didx ∧ t.upc = s.upc ∧ t.rsp ≠ none) := by
  cases h with
  | reset hrst => simp [hr] at hrst
  | quiet _ hs' | illegal _ hs' | advance _ hs' | sendEnd _ hs' | writeEnd _ hs' | startDwell _ hs' => simp [hs] at hs'
  | encRejected hT | enc hT | latch hT | send hT | write hT | render hT => simp [Takes, hs] at hT
  | dwell _ _ hn =>
    have h1 : s.dwellcnt ≠ 1 := by omega
    refine ⟨by simp, ?_, fun _ => by simp [hs], fun h => absurd h h1, fun h => absurd h h1⟩
    simp
    omega
  | nextDigit hE =>
    obtain ⟨-, -, h1, hd⟩ := hE
    exact ⟨rfl, by simp [h1], fun hne => absurd h1 hne, fun _ _ => ⟨rfl, didx_succ_toNat hd, rfl⟩,
      fun _ h3 => absurd h3 hd⟩
  | sweepEnd _ _ h1 hd => simp [h1, hd]

/-! ### The statements -/

/-- Settles O43, by the events that respond and the one that writes `PATTERN`. -/
theorem patternIsWrittenByEncOnly : Obligations.PatternIsWrittenByEncOnly := by
  intro s t h
  have hE := step_event h
  refine ⟨fun hr => ?_, fun d dp hd hT => ?_, hE.pattern_eq, fun r hrsp => ?_⟩
  · simp [next_of_reset h hr]
  · simp [next_of_enc h hT hd]
  · obtain ⟨-, -, -, hpattern, -⟩ := hE.response hrsp
    exact hpattern

/-- Settles O44, by the event that writes the value registers. -/
theorem valueRegistersAreWrittenByRenderOnly : Obligations.ValueRegistersAreWrittenByRenderOnly := by
  intro s t h
  refine ⟨fun hr => ?_, fun v en ix hT => ?_, (step_event h).value_eq⟩
  · simp [next_of_reset h hr]
  · simp [next_of_render h hT]

/-- Settles O45, by the four events that write `FRAME`. -/
theorem frameIsWrittenAtAcceptAndDwellEndOnly : Obligations.FrameIsWrittenAtAcceptAndDwellEndOnly := by
  intro s t h
  refine ⟨fun hr => ?_, fun b hT => ?_, fun g m hT => ?_, fun v en ix hT => ?_, fun hEnd => ?_,
    (step_event h).frame_eq⟩
  · simp [next_of_reset h hr]
  · simp [next_of_send h hT]
  · simp [next_of_write h hT]
  · simp [next_of_render h hT]
  · simp [next_of_endsDwell h hEnd]

/-- Settles O46, by the split of the events into those that respond and those that do not. -/
theorem responseWritesStatusAndEndsTheCommand : Obligations.ResponseWritesStatusAndEndsTheCommand :=
  fun _ _ h => ⟨fun _ hrsp => (step_event h).response hrsp, (step_event h).noResponse⟩

/-- Settles O58, one clause per state the step starts in. -/
theorem sequencerRegistersAreWrittenAtTheirEventsOnly :
    Obligations.SequencerRegistersAreWrittenAtTheirEventsOnly := by
  intro s t h
  have hE := step_event h
  refine ⟨fun hr => ?_, fun b hT => ?_, fun g m hT => ?_, fun v en ix hT => ?_, hE.sequencer_eq_of_idle,
    hE.sequencer_of_shift, hE.sequencer_of_dwell⟩
  · simp [next_of_reset h hr]
  · simp [next_of_send h hT]
  · simp [next_of_write h hT]
  · simp [next_of_render h hT]

/-- Settles O48: no event writes the parameters. -/
theorem parametersAreNeverWritten : Obligations.ParametersAreNeverWritten :=
  fun _ _ h => (step_event h).cfg_inputs

/-- Outside IDLE a clock edge reads no port but `rst`. -/
theorem clockEdge_of_busy {p q : PortSample} (hs : s.st ≠ .idle) (hr : p.rst = q.rst) :
    clockEdge p s = clockEdge q s := by
  unfold clockEdge
  rw [hr]
  cases hst : s.st with
  | idle => exact absurd hst hs
  | shift => rfl
  | dwell => rfl

/-- Settles O42: after the port sample is taken the two states are the same, and a busy clock edge reads `rst` only. -/
theorem busyBlockIgnoresTheCommandPorts : Obligations.BusyBlockIgnoresTheCommandPorts := by
  intro s p q rest hs hr
  by_cases hc : s.cfg.wf
  · have hstep (r : PortSample) :
        step { s with inputs := r :: rest } = clockEdge r { beginStep s with inputs := rest } := step_of_wf hc
    rw [hstep p, hstep q]
    exact clockEdge_of_busy hs hr
  · simp [step, stepOnce, hc]

/-- Settles O14, by rows 3 to 9 of the step table. -/
theorem stepRunsTheAcceptedInstruction : Obligations.StepRunsTheAcceptedInstruction := by
  intro s w i hA hw
  obtain ⟨hc, hs, hr, hv, rfl⟩ := hA
  exact step_takes hc ⟨hr, hs, hv, hw⟩

/-- What the decoder reads from a word of the opcode table is what its command word decodes to. -/
theorem decode_of_decodeTableWord {nbits w : Nat} {i : Instr} (h : decodeTableWord nbits w = some i) :
    decode (tableWord nbits w) = .ok i := by
  unfold decodeTableWord at h
  split at h
  · rename_i hw
    rw [hw, Option.some.inj h]
  · simp at h

/-- Settles O15: the placed word is the one that the next step takes. -/
theorem fetchWordRunsItsInstruction : Obligations.FetchWordRunsItsInstruction := by
  intro s nbits w i hc hw
  exact step_takes (s := s.withFetchWord nbits w) hc ⟨rfl, rfl, rfl, decode_of_decodeTableWord hw⟩

/-- Settles O12: the reset state is written out, and its parameters are accepted. -/
theorem resetValues : Obligations.ResetValues := by
  have hc : Config.reference.wf := by decide
  exact ⟨rfl, rfl, rfl, rfl, rfl, rfl, rfl, rfl, rfl, rfl, rfl, rfl, rfl, rfl, rfl, rfl, rfl, rfl, rfl, rfl, rfl, hc⟩

end Sys2Proof.Machine
end

section
/-!
Every command is answered once (spec/10_state.md R35, spec/70_reset_and_hazards.md R234): how many steps a long
operation still takes, counted down by every busy step, and the run of a list of commands.
-/
namespace Sys2Proof.Machine

variable {s t : State}

/-! ### The steps still to come -/

/-- The steps until the response of the operation in progress, the responding step included; 0 in IDLE. -/
def remainingSteps (s : State) : Nat :=
  match s.st, s.opr with
  | .idle, _       => 0
  | .shift, .none  => 0
  | .shift, .send  => 25 - s.upc.val
  | .shift, .write => 50 - s.upc.val
  | .shift, .render => 50 - s.upc.val + s.cfg.dwellTicks + (3 - s.didx.toNat) * digitSteps s.cfg
  | .dwell, _      => s.dwellcnt + (3 - s.didx.toNat) * digitSteps s.cfg

/-- The status code with which the operation in progress will end. -/
def pendingStatus (s : State) : Status := if s.opr = .render then renderStatus s.val else .ok

theorem remainingSteps_of_send (hs : s.st = .shift) (ho : s.opr = .send) : remainingSteps s = 25 - s.upc.val := by
  simp [remainingSteps, hs, ho]

theorem remainingSteps_of_write (hs : s.st = .shift) (ho : s.opr = .write) : remainingSteps s = 50 - s.upc.val := by
  simp [remainingSteps, hs, ho]

theorem remainingSteps_of_render (hs : s.st = .shift) (ho : s.opr = .render) :
    remainingSteps s = 50 - s.upc.val + s.cfg.dwellTicks + (3 - s.didx.toNat) * digitSteps s.cfg := by
  simp [remainingSteps, hs, ho]

theorem remainingSteps_of_dwell (hs : s.st = .dwell) :
    remainingSteps s = s.dwellcnt + (3 - s.didx.toNat) * digitSteps s.cfg := by
  simp [remainingSteps, hs]

/-- A busy block has steps to come. -/
theorem ControlLegal.remainingSteps_pos (hL : ControlLegal s) (hs : s.st ≠ .idle) : 0 < remainingSteps s := by
  cases hst : s.st with
  | idle => exact absurd hst hs
  | shift =>
    rcases hL.shift hst with ⟨ho, -, h24⟩ | ho | ho
    · rw [remainingSteps_of_send hst ho]
      omega
    · rw [remainingSteps_of_write hst ho]
      omega
    · rw [remainingSteps_of_render hst ho]
      omega
  | dwell =>
    obtain ⟨-, hn⟩ := hL.dwell hst
    rw [remainingSteps_of_dwell hst]
    omega

/-- The digits after the current one: the next, and those after it. -/
theorem digitsLeft_eq {i : BitVec 2} (h : i ≠ 3) : 3 - i.toNat = (3 - (i + 1).toNat) + 1 := by
  have := didx_succ_toNat h
  have := (i + 1).isLt
  omega

/-- A micro-step that advances `UPC` counts the remaining steps down. -/
theorem remainingSteps_pinStep (p : Pin) (b : Bool) (hs : s.st = .shift) (hu : s.upc.val < 49)
    (ho : (s.opr = .send ∧ 1 ≤ s.upc.val ∧ s.upc.val < 24) ∨ s.opr = .write ∨ s.opr = .render) :
    remainingSteps s = remainingSteps (pinStep p b s) + 1 := by
  have hs' : (pinStep p b s).st = .shift := by simpa using hs
  have hu' := upc_succ_val hu
  rcases ho with ⟨ho, -, h24⟩ | ho | ho
  · rw [remainingSteps_of_send hs ho, remainingSteps_of_send hs' (by simpa using ho), pinStep_upc]
    omega
  · rw [remainingSteps_of_write hs ho, remainingSteps_of_write hs' (by simpa using ho), pinStep_upc]
    omega
  · rw [remainingSteps_of_render hs ho, remainingSteps_of_render hs' (by simpa using ho), pinStep_upc, pinStep_cfg,
      pinStep_didx]
    omega

/-- A busy step is the last of its operation and responds, or counts the remaining steps down. -/
theorem StepEvent.responds_or_counts (h : StepEvent s t) (hL : ControlLegal s) (hr : s.portNow.rst = false)
    (hs : s.st ≠ .idle) :
    (remainingSteps s = 1 ∧ ∃ p, t.rsp = some ⟨pendingStatus s, p⟩) ∨
    (remainingSteps s = remainingSteps t + 1 ∧ t.st ≠ .idle ∧ t.rsp = none ∧ pendingStatus t = pendingStatus s) := by
  cases h with
  | reset hrst => simp [hr] at hrst
  | quiet _ hs' | illegal _ hs' => exact absurd hs' hs
  | encRejected hT | enc hT | latch hT | send hT | write hT | render hT => exact absurd hT.2.1 hs
  | advance _ hst ho hu =>
    exact .inr ⟨remainingSteps_pinStep _ _ hst hu ho, by simp [hst], by simp, by simp [pendingStatus]⟩
  | sendEnd _ hst ho hu => exact .inl ⟨by rw [remainingSteps_of_send hst ho, hu]; rfl, by simp [pendingStatus, ho]⟩
  | writeEnd _ hst ho hu => exact .inl ⟨by rw [remainingSteps_of_write hst ho, hu]; rfl, by simp [pendingStatus, ho]⟩
  | startDwell _ hst ho hu =>
    refine .inr ⟨?_, by simp, by simp, by simp [pendingStatus]⟩
    rw [remainingSteps_of_render hst ho, remainingSteps_of_dwell rfl, hu]
    simp
    omega
  | dwell _ hst hn =>
    refine .inr ⟨?_, by simp [hst], by simp, rfl⟩
    rw [remainingSteps_of_dwell hst, remainingSteps_of_dwell]
    · simp
      omega
    · exact hst
  | nextDigit hE =>
    obtain ⟨-, hst, h1, hd⟩ := hE
    obtain ⟨ho, -⟩ := hL.dwell hst
    refine .inr ⟨?_, by simp, by simp, rfl⟩
    rw [remainingSteps_of_dwell hst, remainingSteps_of_render rfl, h1, digitsLeft_eq hd]
    · simp [digitSteps]
      ring
    · exact ho
  | sweepEnd _ hst h1 hd =>
    obtain ⟨ho, -⟩ := hL.dwell hst
    exact .inl ⟨by rw [remainingSteps_of_dwell hst, h1, hd]; simp, by simp [pendingStatus, ho]⟩

/-! ### The bookkeeping of a run -/

/-- A step without reset is counted. -/
theorem StepEvent.stepNo_eq (h : StepEvent s t) (hr : s.portNow.rst = false) : t.stepNo = s.stepNo + 1 := by
  cases h with
  | reset hrst => simp [hr] at hrst
  | _ => simp

/-- A run without reset keeps the parameters, takes one port sample per step and counts its steps. -/
theorem run_bookkeeping {k : Nat} (hr : NoReset k s) (h : run k s = .next t) :
    t.cfg = s.cfg ∧ t.inputs = s.inputs.drop k ∧ t.stepNo = s.stepNo + k := by
  induction k generalizing s with
  | zero =>
    obtain rfl : s = t := by simpa using h
    simp
  | succ k ih =>
    obtain ⟨u, hu, hk⟩ := run_succ_cases h
    have hE := step_event hu
    obtain ⟨hcfg, hin⟩ := hE.cfg_inputs
    obtain ⟨h1, h2, h3⟩ := ih (hr.step hin) hk
    rw [h1, h2, h3, hcfg, hin, hE.stepNo_eq hr.portNow]
    exact ⟨rfl, by simp, by omega⟩

/-! ### One command -/

/-- `t` is IDLE, and since `s` one response was logged, with code `c` and step number `n`. -/
structure Answered (n : Nat) (c : Status) (s t : State) : Prop where
  idle   : t.st = .idle
  rspLog : ∃ p, t.rspLog = s.rspLog ++ [⟨n, ⟨c, p⟩⟩]

/-- A step with a response answers the command. -/
theorem StepEvent.answered {c : Status} {p : Byte} (h : StepEvent s t) (hrsp : t.rsp = some ⟨c, p⟩) :
    Answered (s.stepNo + 1) c s t := by
  obtain ⟨-, hs, -, -, hlog⟩ := h.response hrsp
  exact ⟨hs, p, hlog⟩

/-- A step without a response before the answer. -/
theorem Answered.of_step {n : Nat} {c : Status} {u : State} (h : Answered n c u t) (hlog : u.rspLog = s.rspLog) :
    Answered n c s t :=
  ⟨h.idle, by simpa [hlog] using h.rspLog⟩

/-- A busy block that is not reset answers when its remaining steps are over. -/
theorem run_remainingSteps (hL : ControlLegal s) (hs : s.st ≠ .idle) (hr : NoReset (remainingSteps s) s) :
    ∃ t, run (remainingSteps s) s = .next t ∧ Answered (s.stepNo + remainingSteps s) (pendingStatus s) s t := by
  induction hk : remainingSteps s generalizing s with
  | zero =>
    have := hL.remainingSteps_pos hs
    omega
  | succ k ih =>
    rw [hk] at hr
    have hr0 := hr.portNow
    obtain ⟨u, hu⟩ := hL.next
    have hE := step_event hu
    rw [run_succ_of_step k hu]
    rcases hE.responds_or_counts hL hr0 hs with ⟨h1, p, hrsp⟩ | ⟨h1, hsu, hrsp, hstat⟩
    · obtain rfl : k = 0 := by omega
      exact ⟨u, rfl, hE.answered hrsp⟩
    · obtain ⟨-, hin⟩ := hE.cfg_inputs
      obtain ⟨-, hlog⟩ := hE.noResponse hrsp hr0
      have hku : remainingSteps u = k := by omega
      obtain ⟨t, hrun, ha⟩ := ih (hL.event hE) hsu (by rw [hku]; exact hr.step hin) hku
      rw [hstat, hE.stepNo_eq hr0, Nat.add_assoc, Nat.add_comm 1 k] at ha
      exact ⟨t, hrun, ha.of_step hlog⟩

/-- An accept step answers its word, or starts an operation that takes the rest of the word's steps. -/
theorem StepEvent.responds_or_starts {w : CmdWord} (h : StepEvent s t) (hA : Accepts s w) :
    (wordSteps s.cfg w = 1 ∧ ∃ p, t.rsp = some ⟨wordStatus w, p⟩) ∨
    (wordSteps s.cfg w = remainingSteps t + 1 ∧ t.st ≠ .idle ∧ t.rsp = none ∧ pendingStatus t = wordStatus w) := by
  obtain ⟨-, hs, hr, hv, rfl⟩ := hA
  cases h with
  | reset hrst => simp [hr] at hrst
  | quiet _ _ hv' => simp [hv] at hv'
  | illegal _ _ _ hw => exact .inl (by simp [wordSteps, wordStatus, hw])
  | encRejected hT hd | enc hT hd =>
    obtain ⟨-, -, -, hw⟩ := hT
    exact .inl (by simp [wordSteps, wordStatus, hw, instrSteps, instrStatus, hd])
  | latch hT =>
    obtain ⟨-, -, -, hw⟩ := hT
    exact .inl (by simp [wordSteps, wordStatus, hw, instrSteps, instrStatus])
  | send hT =>
    obtain ⟨-, -, -, hw⟩ := hT
    refine .inr ⟨?_, by simp, by simp, by simp [pendingStatus, wordStatus, hw, instrStatus]⟩
    rw [remainingSteps_of_send rfl rfl]
    simp [wordSteps, hw, instrSteps]
  | write hT =>
    obtain ⟨-, -, -, hw⟩ := hT
    refine .inr ⟨?_, by simp, by simp, by simp [pendingStatus, wordStatus, hw, instrStatus]⟩
    rw [remainingSteps_of_write rfl rfl]
    simp [wordSteps, hw, instrSteps]
  | render hT =>
    obtain ⟨-, -, -, hw⟩ := hT
    refine .inr ⟨?_, by simp, by simp, by simp [pendingStatus, wordStatus, hw, instrStatus]⟩
    rw [remainingSteps_of_render rfl rfl]
    simp [wordSteps, hw, instrSteps, digitSteps]
    omega
  | advance _ hs' | sendEnd _ hs' | writeEnd _ hs' | startDwell _ hs' | dwell _ hs' | sweepEnd _ hs' =>
    simp [hs] at hs'
  | nextDigit hE => simp [EndsDwellBeforeLastDigit, hs] at hE

/-- An accepted word, legal or not, is answered after the steps of R234 with the code of R190. -/
theorem run_command {w : CmdWord} (hA : Accepts s w) (hr : NoReset (wordSteps s.cfg w) s) :
    ∃ t, run (wordSteps s.cfg w) s = .next t ∧ Answered (s.stepNo + wordSteps s.cfg w) (wordStatus w) s t := by
  have hL : ControlLegal s := ⟨hA.cfgWf, by simp [hA.idle], by simp [hA.idle]⟩
  obtain ⟨u, hu⟩ := hL.next
  have hE := step_event hu
  rcases hE.responds_or_starts hA with ⟨h1, p, hrsp⟩ | ⟨h1, hsu, hrsp, hstat⟩
  · rw [h1]
    exact ⟨u, run_succ_of_step 0 hu, hE.answered hrsp⟩
  · rw [h1] at hr ⊢
    obtain ⟨-, hin⟩ := hE.cfg_inputs
    obtain ⟨-, hlog⟩ := hE.noResponse hrsp hA.rst
    obtain ⟨t, hrun, ha⟩ := run_remainingSteps (hL.event hE) hsu (hr.step hin)
    rw [hstat, hE.stepNo_eq hA.rst, Nat.add_assoc, Nat.add_comm 1] at ha
    exact ⟨t, (run_succ_of_step _ hu).trans hrun, ha.of_step hlog⟩

/-! ### A list of commands -/

theorem wordSteps_pos (c : Config) (w : CmdWord) : 0 < wordSteps c w := by
  unfold wordSteps
  split
  · rename_i i _
    cases i <;> simp [instrSteps]
  · exact Nat.one_pos

/-- A host that issues a word presents as many port samples as the word takes steps. -/
@[simp] theorem commandPorts_length (c : Config) (w : CmdWord) : (commandPorts c w).length = wordSteps c w := by
  have := wordSteps_pos c w
  simp [commandPorts]
  omega

theorem programPorts_cons (c : Config) (w : CmdWord) (ws : List CmdWord) :
    programPorts c (w :: ws) = commandPorts c w ++ programPorts c ws := rfl

theorem programSteps_cons (c : Config) (w : CmdWord) (ws : List CmdWord) :
    programSteps c (w :: ws) = wordSteps c w + programSteps c ws := by
  simp [programSteps]

/-- No reset comes while a host that issues a word waits for its answer. -/
theorem noReset_commandPorts {c : Config} {w : CmdWord} {rest : List PortSample}
    (h : s.inputs = commandPorts c w ++ rest) : NoReset (wordSteps c w) s := by
  intro p hp
  rw [h, List.take_left' (commandPorts_length c w)] at hp
  rcases List.mem_cons.mp hp with rfl | hp
  · rfl
  · rw [List.eq_of_mem_replicate hp]
    rfl

/-- Settles O37, by induction on the list of words with one command's run at each word. -/
theorem everyCommandIsAnsweredOnceInOrder : Obligations.EveryCommandIsAnsweredOnceInOrder := by
  intro s ws hc hs hin
  induction ws generalizing s with
  | nil => exact ⟨s, rfl, hs, hin, by simp, by simp [completionSteps]⟩
  | cons w ws ih =>
    rw [programPorts_cons] at hin
    have hport : s.portNow = PortSample.offer w := by rw [State.portNow, hin]; rfl
    have hA : Accepts s w := ⟨hc, hs, by rw [hport]; rfl, by rw [hport]; rfl, by rw [hport]; rfl⟩
    have hr := noReset_commandPorts hin
    obtain ⟨u, hu, hidle, p, hlog⟩ := run_command hA hr
    obtain ⟨hcfg, hinu, hno⟩ := run_bookkeeping hr hu
    rw [hin, List.drop_left' (commandPorts_length s.cfg w)] at hinu
    obtain ⟨t, ht, hst, hint, hstatus, hsteps⟩ := ih u (by rwa [hcfg]) hidle (by rwa [hcfg])
    rw [hcfg] at ht hsteps
    refine ⟨t, ?_, hst, hint, ?_, ?_⟩
    · rw [programSteps_cons, run_add hu, ht]
    · simp [hstatus, hlog]
    · simp [hsteps, hlog, hno, completionSteps]

end Sys2Proof.Machine
end

section
/-!
The digit-select masks (spec/20_memory.md R51).
-/
namespace Sys2Proof.Machine

/-- An entry of the digit-select table is 1 shifted to its position. -/
theorem digitPosRead_eq : ∀ i : BitVec 2, digitPosRead i = 1#8 <<< i.toNat := by decide

/-- The only bit set in an entry of the digit-select table is the one of its position. -/
theorem digitPosRead_getLsbD (i : BitVec 2) (j : Nat) : (digitPosRead i).getLsbD j = decide (j = i.toNat) := by
  have hi : i.toNat < 4 := i.isLt
  rw [digitPosRead_eq, BitVec.getLsbD_shiftLeft, BitVec.getLsbD_one, Bool.eq_iff_iff]
  simp
  omega

/-- An entry of the digit-select table enables exactly one digit position. -/
theorem oneDigitEnabled_digitPosRead : ∀ i : BitVec 2, OneDigitEnabled (digitPosRead i) := by
  unfold OneDigitEnabled
  decide

/-- Settles O9, from the position of the one bit set. -/
theorem digitPositionsAreOneHot : Obligations.DigitPositionsAreOneHot := by
  refine ⟨rfl, rfl, rfl, rfl, fun i => ⟨digitPosRead_eq i, fun j _ => ?_, fun j hj => ?_⟩⟩
  · simp [digitPosRead_getLsbD]
  · have hne : j ≠ i.toNat := by omega
    simpa [digitPosRead_getLsbD] using hne

end Sys2Proof.Machine
end

section
/-!
The lines and the external register over every step (spec/20_memory.md R58 to R61): a step resets them, leaves them
alone, or makes one pin assignment.
-/
namespace Sys2Proof.Machine

variable {s t : State}

/-- The lines, the two stages of the external register and `TRACE` are the same in two states. -/
structure SameWire (s t : State) : Prop where
  data   : s.data = t.data
  clk    : s.clk = t.clk
  latch  : s.latch = t.latch
  envSr  : s.envSr = t.envSr
  envOut : s.envOut = t.envOut
  trace  : s.trace = t.trace

/-- What a step does to the wire, whatever else it does. -/
inductive WireEffect (s t : State) : Prop
  | reset (hr : s.portNow.rst = true) (hw : SameWire t (resetBlock s))
  | keeps (hr : s.portNow.rst = false) (hw : SameWire t s)
  | assigns (p : Pin) (b : Bool) (hr : s.portNow.rst = false) (hw : SameWire t (assignPin p b s))

/-- A step that makes a pin assignment and whatever else off the wire. -/
theorem WireEffect.of_assignPin {p : Pin} {b : Bool} (hr : s.portNow.rst = false)
    (hw : SameWire t (assignPin p b (beginStep s))) : WireEffect s t := by
  have h : SameWire (assignPin p b (beginStep s)) (assignPin p b s) := by
    cases p <;> exact ⟨rfl, rfl, rfl, rfl, rfl, rfl⟩
  refine .assigns p b hr ?_
  exact ⟨hw.data.trans h.data, hw.clk.trans h.clk, hw.latch.trans h.latch, hw.envSr.trans h.envSr,
    hw.envOut.trans h.envOut, hw.trace.trans h.trace⟩

/-- Every event has one of the three effects. -/
theorem StepEvent.wire (h : StepEvent s t) : WireEffect s t := by
  cases h with
  | reset hr => exact .reset hr ⟨rfl, rfl, rfl, rfl, rfl, rfl⟩
  | quiet hr | illegal hr | dwell hr | sweepEnd hr => exact .keeps hr ⟨rfl, rfl, rfl, rfl, rfl, rfl⟩
  | encRejected hT | enc hT | send hT | write hT | render hT =>
    obtain ⟨hr, -⟩ := hT
    exact .keeps hr ⟨rfl, rfl, rfl, rfl, rfl, rfl⟩
  | nextDigit hE =>
    obtain ⟨hr, -⟩ := hE
    exact .keeps hr ⟨rfl, rfl, rfl, rfl, rfl, rfl⟩
  | latch hT =>
    obtain ⟨hr, -⟩ := hT
    exact .of_assignPin hr ⟨rfl, rfl, rfl, rfl, rfl, rfl⟩
  | advance hr | sendEnd hr | writeEnd hr | startDwell hr => exact .of_assignPin hr ⟨rfl, rfl, rfl, rfl, rfl, rfl⟩

/-! ### The statements -/

/-- Settles O39, one clause per pin. -/
theorem atMostOneAssignmentPerStep : Obligations.AtMostOneAssignmentPerStep := by
  intro s t h hr
  cases (step_event h).wire with
  | reset hrst => simp [hr] at hrst
  | keeps _ hw => exact .inl ⟨hw.trace, hw.data, hw.clk, hw.latch⟩
  | assigns p b _ hw =>
    cases p with
    | data => exact .inr (.inl ⟨b, by simpa using hw.trace, hw.data, hw.clk, hw.latch⟩)
    | clk => exact .inr (.inr (.inl ⟨b, by simpa using hw.trace, hw.data, hw.clk, hw.latch⟩))
    | latch => exact .inr (.inr (.inr ⟨b, by simpa using hw.trace, hw.data, hw.clk, hw.latch⟩))

/-- Settles O38: a step assigns one pin at most, and a reset lowers all three. -/
theorem noStepMakesTwoEdges : Obligations.NoStepMakesTwoEdges := by
  intro s t h
  cases (step_event h).wire with
  | reset _ hw => simp [hw.data, hw.clk, hw.latch]
  | keeps hr hw => simp +contextual [hr, hw.data, hw.clk]
  | assigns p b hr hw =>
    cases p with
    | data | clk | latch => simp +contextual [hr, hw.data, hw.clk, hw.latch]

/-- Settles O40: of the pin assignments, only `CLK <- 1` with the clock line low moves the shift stage. -/
theorem shiftStageMovesAtClockEdgesOnly : Obligations.ShiftStageMovesAtClockEdgesOnly := by
  intro s t h
  cases (step_event h).wire with
  | reset _ hw => simp [hw.clk, hw.envSr]
  | keeps _ hw => simp +contextual [hw.clk, hw.envSr]
  | assigns p b _ hw =>
    cases p with
    | clk => cases b <;> simp +contextual [hw.clk, hw.envSr, shiftIn]
    | data | latch => simp +contextual [hw.clk, hw.envSr]

/-- Settles O41: of the pin assignments, only `LATCH <- 1` with the latch line low moves the output stage. -/
theorem outputStageMovesAtLatchEdgesOnly : Obligations.OutputStageMovesAtLatchEdgesOnly := by
  intro s t h _
  cases (step_event h).wire with
  | reset _ hw => simp [hw.latch, hw.envOut]
  | keeps _ hw => simp +contextual [hw.latch, hw.envOut]
  | assigns p b _ hw =>
    cases p with
    | latch => cases b <;> simp +contextual [hw.latch, hw.envOut]
    | data | clk => simp +contextual [hw.latch, hw.envOut]

end Sys2Proof.Machine
end

section
/-!
The words of `WRITE` and `RENDER` decode to their operations (spec/30_encoding.md R81, R82, R84).
-/
namespace Sys2Proof

/-- A field of the operand bits of a word, found bit by bit in their layout. -/
theorem extract_packWord_eq {op : BitVec 3} {x : BitVec 19} {i n : Nat} {v : BitVec n} (hin : i + n ≤ 19)
    (h : ∀ k, k < n → x.getLsbD (i + k) = v.getLsbD k) : (packWord op x).extractLsb' i n = v := by
  rw [packWord_extract _ _ _ _ hin]
  apply BitVec.eq_of_getLsbD_eq
  intro k hk
  rw [BitVec.getLsbD_extractLsb', h k hk]
  simp [hk]

/-- The word of `WRITE` is read back. -/
theorem decode_encode_write (g m : Byte) : decode (encode (.write g m)) = .ok (.write g m) := by
  have hzero : (encode (.write g m)).extractLsb' 16 3 = 0 := extract_packWord_eq (by decide) fun k hk => by
    rw [operandBits_write_getLsbD, if_neg (by omega), BitVec.getLsbD_of_ge g _ (by omega), BitVec.ofNat_eq_ofNat,
      BitVec.getLsbD_zero]
  have hseg : (encode (.write g m)).extractLsb' 8 8 = g := extract_packWord_eq (by decide) fun k hk => by
    simp [operandBits_write_getLsbD]
  have hdsel : (encode (.write g m)).extractLsb' 0 8 = m := extract_packWord_eq (by decide) fun k hk => by
    simp [operandBits_write_getLsbD, hk]
  calc decode (encode (.write g m)) = decodeW (encode (.write g m)) := by simp [decode, encode, opCode]
    _ = .ok (.write g m) := by rw [decodeW, hzero, hseg, hdsel, if_pos rfl]

/-- The word of `RENDER` is read back. -/
theorem decode_encode_render (v : Word) (en : Bool) (ix : BitVec 2) :
    decode (encode (.render v en ix)) = .ok (.render v en ix) := by
  have hvalue : (encode (.render v en ix)).extractLsb' 0 16 = v := extract_packWord_eq (by decide) fun k hk => by
    simp [operandBits_render_getLsbD, hk]
  have hdpen : (encode (.render v en ix)).getLsbD 18 = en := by
    rw [encode, packWord_getLsbD, operandBits_render_getLsbD]
    simp
  have hdpidx : (encode (.render v en ix)).extractLsb' 16 2 = ix := extract_packWord_eq (by decide) fun k hk => by
    rw [operandBits_render_getLsbD, if_neg (by omega), if_pos (by omega), Nat.add_sub_cancel_left]
  calc decode (encode (.render v en ix)) = decodeR (encode (.render v en ix)) := by simp [decode, encode, opCode]
    _ = .ok (.render v en ix) := by rw [decodeR, hvalue, hdpen, hdpidx]

end Sys2Proof
end

section
/-!
What the display shows after a frame (spec/20_memory.md R63) and under a host that issues only `RENDER` and `ENC` (R65):
the output stage takes a whole frame, and the low byte of a frame of `RENDER` is an entry of the digit-select table.
-/
namespace Sys2Proof.Machine

variable {s t u : State}

/-! ### The first frame of an operation -/

/-- The next step takes the instruction whose word it accepts. -/
theorem Accepts.takes {w : CmdWord} {i : Instr} (hA : Accepts s w) (hw : decode w = .ok i) : Takes s i := by
  obtain ⟨-, hs, hr, hv, rfl⟩ := hA
  exact ⟨hr, hs, hv, hw⟩

/-- `t` is one step before the latch edge of the frame that began in `u`, and that step is no reset. -/
structure BeforeLatchEdge (u t : State) : Prop where
  cfgWf : t.cfg.wf
  rst   : t.portNow.rst = false
  st    : t.st = .shift
  upc   : t.upc = 49
  opr   : t.opr = u.opr
  latch : t.latch = false
  envSr : t.envSr = u.frame
  haz1  : t.haz1 = u.haz1

/-- A step that starts a frame and the 49 micro-steps before the frame's latch edge. -/
theorem run_beforeLatchEdge (h : step s = .next u) (hs : u.st = .shift) (hu : u.upc = 0)
    (ho : u.opr = .write ∨ u.opr = .render) (hclk : u.clk = false) (hr : NoReset 51 s) :
    ∃ t, run 50 s = .next t ∧ BeforeLatchEdge u t := by
  obtain ⟨hcfg, hin⟩ := (step_event h).cfg_inputs
  have hc : u.cfg.wf := by
    obtain ⟨hc, -⟩ := step_cases h
    rwa [hcfg]
  have hr50 : NoReset (49 + 1) u := hr.step hin
  refine ⟨_, (run_succ_of_step 49 h).trans (run_frame hc hs hclk hu ho (hr50.mono (by decide))), ?_⟩
  exact ⟨hc, NoReset.portNow (hr50.drop rfl), hs, rfl, rfl, rfl, rfl, rfl⟩

/-! ### After `WRITE` -/

/-- After the 51 steps of a `WRITE` the output stage holds its two bytes (spec/42_shift_register_frame.md R142). -/
theorem run_write_envOut {g m : Byte} (hA : Accepts s (encode (.write g m))) (hclk : s.clk = false)
    (hr : NoReset 51 s) : ∃ t, run 51 s = .next t ∧ t.envOut = g ++ m := by
  have haccept : step s = .next { beginStep s with frame := g ++ m, opr := .write, upc := 0, st := .shift } :=
    step_takes hA.cfgWf (hA.takes (decode_encode_write g m))
  obtain ⟨t, hrun, hL⟩ := run_beforeLatchEdge haccept rfl rfl (.inl rfl) hclk hr
  have hlast : step t = .next (done .ok (assignPin .latch true (beginStep t))) := by
    rw [step_write hL.cfgWf hL.rst hL.st hL.opr, writeMicroStep_last (s := beginStep t) hL.upc]
  refine ⟨_, (run_add hrun).trans (run_succ_of_step 0 hlast), ?_⟩
  simp [hL.latch, hL.envSr]

/-- Settles O36: the display is driven by the output stage, which holds the two bytes of the `WRITE`. -/
theorem displayShowsTheWrittenPattern : Obligations.DisplayShowsTheWrittenPattern := by
  intro s g m hA hclk hr _
  obtain ⟨t, hrun, hout⟩ := run_write_envOut hA hclk hr
  refine ⟨t, hrun, fun i => ?_⟩
  have hmask : t.digitEnabled i = m.getLsbD i.val := by
    rw [State.digitEnabled, hout, frame_getLsbD, if_pos (by omega)]
  have hsegment (k : Fin 8) : t.envOut.getLsbD (8 + k.val) = g.getLsbD k.val := by
    rw [hout, frame_getLsbD, if_neg (by omega), Nat.add_sub_cancel_left]
  refine ⟨hmask, fun k => ?_⟩
  calc t.segmentLit k i = (t.digitEnabled i && !t.envOut.getLsbD (8 + k.val)) := rfl
    _ = (m.getLsbD i.val && !g.getLsbD k.val) := by rw [hmask, hsegment]

/-! ### Under a host that issues only `RENDER` and `ENC` -/

/-- A command on the ports is one of the host's inputs. -/
theorem portNow_mem (hv : s.portNow.cmdValid = true) : s.portNow ∈ s.inputs := by
  unfold State.portNow at hv ⊢
  cases hi : s.inputs with
  | nil => simp [hi, PortSample.quiet] at hv
  | cons p ps => exact List.mem_cons_self

/-- What such a host's next command can be. -/
theorem OnlyRenderEnc.takes {i : Instr} (h : OnlyRenderEnc s.inputs) (hT : Takes s i) :
    (∃ d dp, i = .enc d dp) ∨ (∃ v en ix, i = .render v en ix) := by
  obtain ⟨-, -, hv, hw⟩ := hT
  rcases h _ (portNow_mem hv) hv with ⟨d, dp, he⟩ | ⟨v, en, ix, he⟩
  · exact .inl ⟨d, dp, Except.ok.inj (hw.symm.trans he)⟩
  · exact .inr ⟨v, en, ix, Except.ok.inj (hw.symm.trans he)⟩

/-- Such a host goes on as one. -/
theorem OnlyRenderEnc.drop {ps : List PortSample} (h : OnlyRenderEnc ps) (k : Nat) : OnlyRenderEnc (ps.drop k) :=
  fun p hp => h p (List.mem_of_mem_drop hp)

/-- In a dwell the display shows a frame of `RENDER`, which enables one digit position. -/
theorem UnderRender.of_dwell (hi : MachineInv s) (hz : s.haz1 = false) (hh : OnlyRenderEnc s.inputs)
    (hs : s.st = .dwell) : UnderRender s := by
  obtain ⟨ho, -⟩ := hi.legal.dwell hs
  have hmask : s.shownMask = digitPosRead s.didx := by
    rw [State.shownMask, hi.dwellOut hs hz, hi.renderFrame (by simp [hs]) ho, frameFor, frame_lo]
  exact ⟨hi, hz, hh, fun _ => ho, hmask ▸ oneDigitEnabled_digitPosRead s.didx⟩

/-- A micro-step of a frame before its last makes no rising edge of the latch line. -/
theorem frameUop_envOut {n : Nat} (hn : n < 49) (s : State) : (frameUop n s).envOut = s.envOut := by
  by_cases h0 : n = 0
  · simp [h0]
  · rw [frameUop_inner (by omega) (by omega), shiftUop_eq]
    split <;> simp

/-- Every event keeps the invariant of R65: the output stage moves at the start of a dwell only. -/
theorem UnderRender.event (hU : UnderRender s) (h : StepEvent s t) : UnderRender t := by
  have hi := hU.inv.event h
  obtain ⟨-, hin⟩ := h.cfg_inputs
  have hh : OnlyRenderEnc t.inputs := by
    rw [hin, ← List.drop_one]
    exact hU.host.drop 1
  have hz := hU.noHaz1
  have keeps (hz : t.haz1 = false) (ho : t.st ≠ .idle → t.opr = .render) (he : t.envOut = s.envOut) : UnderRender t :=
    ⟨hi, hz, hh, ho, by rw [State.shownMask, he]; exact hU.oneDigit⟩
  cases h with
  | send hT | latch hT | write hT => simpa using hU.host.takes hT
  | sendEnd _ hs ho | writeEnd _ hs ho => simp [hU.op (by simp [hs])] at ho
  | startDwell => exact .of_dwell hi (by simpa using hz) hh rfl
  | reset | illegal | encRejected | sweepEnd => exact keeps (by simpa using hz) (by simp) (by simp)
  | quiet | enc | dwell => exact keeps (by simpa using hz) (by simpa using hU.op) (by simp)
  | render => exact keeps hz (by simp) (by simp)
  | nextDigit hE =>
    obtain ⟨-, hs, -, -⟩ := hE
    exact keeps hz (fun _ => hU.op (by simp [hs])) (by simp)
  | advance _ _ _ hu hp =>
    have he : (assignPin _ _ (beginStep s)).envOut = s.envOut := hp ▸ frameUop_envOut hu (beginStep s)
    exact keeps (by simpa using hz) (by simpa using hU.op) he

/-- Settles O59: no step stops under the machine's invariant, every event keeps the display's invariant, and the latch
edge of a frame of `RENDER` starts a dwell. -/
theorem stepKeepsOneDigitEnabled : Obligations.StepKeepsOneDigitEnabled := by
  refine ⟨fun s hU => ?_, fun s hi hz hh hr hs ho hu => ?_⟩
  · obtain ⟨t, h⟩ := hU.inv.controlLegal.next
    exact ⟨t, h, hU.event (step_event h)⟩
  · have hE := StepEvent.startDwell hr hs ho hu
    have h : step s = .next { assignPin .latch true (beginStep s) with dwellcnt := s.cfg.dwellTicks, st := .dwell } := by
      rw [step_render hi.cfgWf hr hs ho, renderMicroStep_last (s := beginStep s) hu, beginStep_cfg]
    refine ⟨_, h, .of_dwell (hi.event hE) (by simpa using hz) ?_ rfl⟩
    simpa using hh.drop 1

/-- Settles O56: 50 steps lead to the step before the first latch edge, which establishes the invariant of O59. -/
theorem oneDigitIsEnabledUnderRender : Obligations.OneDigitIsEnabledUnderRender := by
  intro s v en ix hA hi hz hh hr k hk
  obtain ⟨keep, establish⟩ := stepKeepsOneDigitEnabled
  have haccept := step_takes hi.cfgWf (hA.takes (decode_encode_render v en ix))
  obtain ⟨a, hrun, hL⟩ := run_beforeLatchEdge haccept rfl rfl (.inr rfl) (hi.legal.idleClk hA.idle) hr
  obtain ⟨-, hin, -⟩ := run_bookkeeping (hr.mono (by decide)) hrun
  have hinv : MachineInv a := run_induction (fun _ _ h e => h.event (step_event e)) hi hrun
  obtain ⟨b, hstep, hb⟩ := establish a hinv (hL.haz1.trans hz) (hin ▸ hh.drop 50) hL.rst hL.st hL.opr hL.upc
  obtain ⟨t, hrest, ht⟩ := run_total keep (k - 51) hb
  have hsplit : k = 50 + (k - 51 + 1) := by omega
  exact ⟨t, by rw [hsplit, run_add hrun, run_succ_of_step _ hstep, hrest], ht.oneDigit⟩

end Sys2Proof.Machine
end

section
/-!
The two directions of the round trip between words and instructions (spec/30_encoding.md R77 to R85).
-/
namespace Sys2Proof

/-! ### From an instruction to its word and back -/

/-- The word of `ENC` is read back. -/
theorem decode_encode_enc (d : BitVec 4) (dp : Bool) : decode (encode (.enc d dp)) = .ok (.enc d dp) := by
  have hzero : (encode (.enc d dp)).extractLsb' 5 14 = 0 := extract_packWord_eq (by decide) fun k _ => by
    rw [operandBits_enc_getLsbD, if_neg (by omega), decide_eq_false (by omega)]
    simp
  have hdigit : (encode (.enc d dp)).extractLsb' 0 4 = d := extract_packWord_eq (by decide) fun k hk => by
    simp [operandBits_enc_getLsbD, hk]
  have hdp : (encode (.enc d dp)).getLsbD 4 = dp := by
    rw [encode, packWord_getLsbD, operandBits_enc_getLsbD]
    simp
  calc decode (encode (.enc d dp)) = decodeE (encode (.enc d dp)) := by simp [decode, encode, opCode]
    _ = .ok (.enc d dp) := by rw [decodeE, hzero, hdigit, hdp, if_pos rfl]

/-- The word of `SEND` is read back. -/
theorem decode_encode_send (b : Byte) : decode (encode (.send b)) = .ok (.send b) := by
  have hzero : (encode (.send b)).extractLsb' 8 11 = 0 := extract_packWord_eq (by decide) fun k _ => by
    simp [operandBits_send_getLsbD]
  have hbyte : (encode (.send b)).extractLsb' 0 8 = b := extract_packWord_eq (by decide) fun k _ => by
    simp [operandBits_send_getLsbD]
  calc decode (encode (.send b)) = decodeS (encode (.send b)) := by simp [decode, encode, opCode]
    _ = .ok (.send b) := by rw [decodeS, hzero, hbyte, if_pos rfl]

/-- The word of `LATCH` is read back. -/
theorem decode_encode_latch (l : Bool) : decode (encode (.latch l)) = .ok (.latch l) := by
  have hzero : (encode (.latch l)).extractLsb' 1 18 = 0 := extract_packWord_eq (by decide) fun k _ => by
    simp [operandBits_latch_getLsbD]
  have hlevel : (encode (.latch l)).getLsbD 0 = l := by
    rw [encode, packWord_getLsbD, operandBits_latch_getLsbD]
    simp
  calc decode (encode (.latch l)) = decodeL (encode (.latch l)) := by simp [decode, encode, opCode]
    _ = .ok (.latch l) := by rw [decodeL, hzero, hlevel, if_pos rfl]

/-- Settles O2, format by format. -/
theorem decodeOfEncodeIsTheInstruction : Obligations.DecodeOfEncodeIsTheInstruction
  | .enc d dp => decode_encode_enc d dp
  | .send b => decode_encode_send b
  | .latch l => decode_encode_latch l
  | .write g m => decode_encode_write g m
  | .render v en ix => decode_encode_render v en ix

/-! ### What the decoder answers -/

/-- A field is 0 when each of its bits is. -/
theorem extractLsb'_eq_zero_iff {w : CmdWord} {i n : Nat} :
    w.extractLsb' i n = 0 ↔ ∀ j, i ≤ j → j < i + n → w.getLsbD j = false := by
  constructor
  · intro h j hi hn
    have hbit : (w.extractLsb' i n).getLsbD (j - i) = false := by rw [h]; simp
    simpa [BitVec.getLsbD_extractLsb', show j - i < n by omega, show i + (j - i) = j by omega] using hbit
  · intro h
    apply BitVec.eq_of_getLsbD_eq
    intro k hk
    simp [h (i + k) (by omega) (by omega)]

/-! The operation code chooses the format, once the reserved bits are 0. -/

section Formats

variable {w : CmdWord} (hrsv : rsvField w = 0)
include hrsv

theorem decode_formatE (hop : opField w = 0) : decode w = decodeE w := by simp [decode, hop, hrsv]
theorem decode_formatS (hop : opField w = 1) : decode w = decodeS w := by simp [decode, hop, hrsv]
theorem decode_formatL (hop : opField w = 2) : decode w = decodeL w := by simp [decode, hop, hrsv]
theorem decode_formatW (hop : opField w = 3) : decode w = decodeW w := by simp [decode, hop, hrsv]
theorem decode_formatR (hop : opField w = 4) : decode w = decodeR w := by simp [decode, hop, hrsv]

end Formats

/-- The decoder rejects a word for its operation code or a reserved bit, or reads it in the format of its operation
code (spec/30_encoding.md R84). -/
theorem decode_cases (w : CmdWord) :
    (5 ≤ (opField w).toNat ∧ decode w = .error .reservedOp) ∨
    (rsvField w ≠ 0 ∧ decode w = .error .reservedBit) ∨
    (rsvField w = 0 ∧
      ((opField w = 0 ∧ decode w = decodeE w) ∨ (opField w = 1 ∧ decode w = decodeS w) ∨
       (opField w = 2 ∧ decode w = decodeL w) ∨ (opField w = 3 ∧ decode w = decodeW w) ∨
       (opField w = 4 ∧ decode w = decodeR w))) := by
  by_cases hop : 5 ≤ (opField w).toNat
  · exact .inl ⟨hop, by rw [decode, if_pos hop]⟩
  by_cases hrsv : rsvField w = 0
  · have hcode : opField w = 0 ∨ opField w = 1 ∨ opField w = 2 ∨ opField w = 3 ∨ opField w = 4 := by bv_omega
    exact .inr (.inr ⟨hrsv, hcode.imp (fun h => ⟨h, decode_formatE hrsv h⟩) <|
      .imp (fun h => ⟨h, decode_formatS hrsv h⟩) <| .imp (fun h => ⟨h, decode_formatL hrsv h⟩) <|
      .imp (fun h => ⟨h, decode_formatW hrsv h⟩) fun h => ⟨h, decode_formatR hrsv h⟩⟩)
  · exact .inr (.inl ⟨hrsv, by rw [decode, if_neg hop, if_pos hrsv]⟩)

/-- A format whose operand bits from `m` up must be 0 reads a word in which they are. -/
theorem mustBeZero_ok {w : CmdWord} {m n : Nat} {x i : Instr} (hmn : m + n = 19)
    (h : (if w.extractLsb' m n = 0 then .ok x else .error .mustBeZero : Except IllegalWord Instr) = .ok i) :
    x = i ∧ ∀ j, m ≤ j → j < 19 → w.getLsbD j = false := by
  split at h
  next hzero => exact ⟨Except.ok.inj h, hmn ▸ extractLsb'_eq_zero_iff.1 hzero⟩
  next => cases h

/-! ### From a legal word to its instruction and back -/

/-- A word is the word of an instruction when its fields are (spec/30_encoding.md R76). -/
theorem encode_eq_of_fields {w : CmdWord} {i : Instr} (hrsv : rsvField w = 0) (hop : opField w = opCode i)
    (hbits : ∀ k, k < 19 → (operandBits i).getLsbD k = w.getLsbD k) : encode i = w := by
  have hoperands : operandBits i = w.extractLsb' 0 19 := by
    apply BitVec.eq_of_getLsbD_eq
    intro k hk
    rw [hbits k hk]
    simp [hk]
  rw [encode, ← hop, hoperands, packWord_fields w hrsv]

section Formats

variable {w : CmdWord} {i : Instr} (hrsv : rsvField w = 0)
include hrsv

/-- Format E: bits 5 to 18 of a legal word are 0, the others are the operands of `ENC`. -/
theorem encode_of_decodeE (hop : opField w = 0) (h : decodeE w = .ok i) : encode i = w := by
  obtain ⟨rfl, hzero⟩ := mustBeZero_ok (by decide) h
  refine encode_eq_of_fields hrsv hop fun k hk => ?_
  rw [operandBits_enc_getLsbD]
  by_cases h3 : k < 4
  · simp [h3]
  · by_cases h4 : k = 4
    · simp [h4]
    · simp [h3, h4, hzero k (by omega) hk]

/-- Format S: bits 8 to 18 of a legal word are 0, the others are the byte of `SEND`. -/
theorem encode_of_decodeS (hop : opField w = 1) (h : decodeS w = .ok i) : encode i = w := by
  obtain ⟨rfl, hzero⟩ := mustBeZero_ok (by decide) h
  refine encode_eq_of_fields hrsv hop fun k hk => ?_
  rw [operandBits_send_getLsbD]
  by_cases h7 : k < 8
  · simp [h7]
  · simp [h7, hzero k (by omega) hk]

/-- Format L: bits 1 to 18 of a legal word are 0, bit 0 is the level of `LATCH`. -/
theorem encode_of_decodeL (hop : opField w = 2) (h : decodeL w = .ok i) : encode i = w := by
  obtain ⟨rfl, hzero⟩ := mustBeZero_ok (by decide) h
  refine encode_eq_of_fields hrsv hop fun k hk => ?_
  rw [operandBits_latch_getLsbD]
  by_cases h0 : k = 0
  · simp [h0]
  · simp [h0, hzero k (by omega) hk]

/-- Format W: bits 16 to 18 of a legal word are 0, the others are the two bytes of `WRITE`. -/
theorem encode_of_decodeW (hop : opField w = 3) (h : decodeW w = .ok i) : encode i = w := by
  obtain ⟨rfl, hzero⟩ := mustBeZero_ok (by decide) h
  refine encode_eq_of_fields hrsv hop fun k hk => ?_
  rw [operandBits_write_getLsbD]
  by_cases h7 : k < 8
  · simp [h7]
  · by_cases h15 : k < 16
    · simp [h7, show k - 8 < 8 by omega, show 8 + (k - 8) = k by omega]
    · simp [h7, show ¬ k - 8 < 8 by omega, hzero k (by omega) hk]

/-- Format R: every operand bit is an operand of `RENDER`. -/
theorem encode_of_decodeR (hop : opField w = 4) (h : decodeR w = .ok i) : encode i = w := by
  cases h
  refine encode_eq_of_fields hrsv hop fun k hk => ?_
  rw [operandBits_render_getLsbD]
  by_cases h15 : k < 16
  · simp [h15]
  · by_cases h17 : k < 18
    · simp [h15, h17, show k - 16 < 2 by omega, show 16 + (k - 16) = k by omega]
    · simp [show k = 18 by omega]

end Formats

/-- Settles O3: the decoder reads the word in the format of its operation code, which leaves no bit unread. -/
theorem legalWordIsTheWordOfItsInstruction : Obligations.LegalWordIsTheWordOfItsInstruction := by
  intro w i h
  rcases decode_cases w with ⟨-, hd⟩ | ⟨-, hd⟩ | ⟨hrsv, hformat⟩
  · cases hd.symm.trans h
  · cases hd.symm.trans h
  · rcases hformat with ⟨hop, hd⟩ | ⟨hop, hd⟩ | ⟨hop, hd⟩ | ⟨hop, hd⟩ | ⟨hop, hd⟩ <;> rw [hd] at h
    · exact encode_of_decodeE hrsv hop h
    · exact encode_of_decodeS hrsv hop h
    · exact encode_of_decodeL hrsv hop h
    · exact encode_of_decodeW hrsv hop h
    · exact encode_of_decodeR hrsv hop h

/-- A word decodes to an instruction when it is the word of that instruction. -/
theorem decode_eq_ok_iff {w : CmdWord} {i : Instr} : decode w = .ok i ↔ encode i = w :=
  ⟨legalWordIsTheWordOfItsInstruction w i, fun h => h ▸ decodeOfEncodeIsTheInstruction i⟩

end Sys2Proof
end

section
/-!
The opcode table (spec/30_encoding.md R84): its rows hold the legal words, no word is in two of them, and a word outside
them is rejected for one of three reasons.
-/
namespace Sys2Proof

/-! ### The rows -/

/-- A field that the mask of a row covers is the field of the pattern, in every word of the row. -/
theorem field_of_holds {r : OpcodeRow} {w : CmdWord} {i n : Nat} (h : r.holds w = true)
    (hmask : r.mask.extractLsb' i n = BitVec.allOnes n) : w.extractLsb' i n = r.pattern.extractLsb' i n := by
  simp only [OpcodeRow.holds, beq_iff_eq] at h
  rw [← h, BitVec.extractLsb'_and, hmask, BitVec.and_allOnes]

/-- Every mask covers the operation code. -/
theorem opField_of_holds {r : OpcodeRow} {w : CmdWord} (hr : r ∈ opcodeTable) (h : r.holds w = true) :
    opField w = opField r.pattern := by
  have hmask : ∀ q ∈ opcodeTable, q.mask.extractLsb' 21 3 = BitVec.allOnes 3 := by decide
  exact field_of_holds h (hmask r hr)

/-- Every mask covers the reserved bits, which are 0 in every pattern. -/
theorem rsvField_of_holds {r : OpcodeRow} {w : CmdWord} (hr : r ∈ opcodeTable) (h : r.holds w = true) :
    rsvField w = 0 := by
  have hmask : ∀ q ∈ opcodeTable, q.mask.extractLsb' 19 2 = BitVec.allOnes 2 := by decide
  have hpattern : ∀ q ∈ opcodeTable, q.pattern.extractLsb' 19 2 = 0 := by decide
  exact (field_of_holds h (hmask r hr)).trans (hpattern r hr)

/-- No word is in two rows, for the patterns differ in the operation code. -/
theorem row_unique {w : CmdWord} {r q : OpcodeRow} (hr : r ∈ opcodeTable) (hq : q ∈ opcodeTable)
    (hrw : r.holds w = true) (hqw : q.holds w = true) : r = q := by
  have hcodes : ∀ a ∈ opcodeTable, ∀ b ∈ opcodeTable, opField a.pattern = opField b.pattern → a = b := by decide
  exact hcodes r hr q hq ((opField_of_holds hr hrw).symm.trans (opField_of_holds hq hqw))

/-- The word of an instruction is in the instruction's row. -/
theorem encode_in_row : ∀ i : Instr, Laws.TableRow.Statement i
  | .enc d dp => Laws.TableRow.enc d dp
  | .send b => Laws.TableRow.send b
  | .latch l => Laws.TableRow.latch l
  | .write g m => Laws.TableRow.write g m
  | .render v en ix => Laws.TableRow.render v en ix

/-- A word in a row is legal: the mask of the row covers the bits that its format wants to be 0. -/
theorem legal_of_holds {r : OpcodeRow} {w : CmdWord} (hr : r ∈ opcodeTable) (h : r.holds w = true) :
    ∃ i, decode w = .ok i := by
  have hrsv := rsvField_of_holds hr h
  have hop := opField_of_holds hr h
  simp only [opcodeTable, List.mem_cons, List.not_mem_nil, or_false] at hr
  rcases hr with rfl | rfl | rfl | rfl | rfl
  · have hzero : w.extractLsb' 5 14 = 0 := field_of_holds h (by decide)
    exact ⟨_, by rw [decode_formatE hrsv hop, decodeE, if_pos hzero]⟩
  · have hzero : w.extractLsb' 8 11 = 0 := field_of_holds h (by decide)
    exact ⟨_, by rw [decode_formatS hrsv hop, decodeS, if_pos hzero]⟩
  · have hzero : w.extractLsb' 1 18 = 0 := field_of_holds h (by decide)
    exact ⟨_, by rw [decode_formatL hrsv hop, decodeL, if_pos hzero]⟩
  · have hzero : w.extractLsb' 16 3 = 0 := field_of_holds h (by decide)
    exact ⟨_, by rw [decode_formatW hrsv hop, decodeW, if_pos hzero]⟩
  · exact ⟨_, decode_formatR hrsv hop⟩

/-- The legal words are the words of the rows. -/
theorem legal_iff_in_row (w : CmdWord) : (∃ i, decode w = .ok i) ↔ ∃ r ∈ opcodeTable, r.holds w = true := by
  constructor
  · rintro ⟨i, h⟩
    obtain ⟨hrow, hholds⟩ := encode_in_row i
    exact ⟨rowOf i, hrow, legalWordIsTheWordOfItsInstruction w i h ▸ hholds⟩
  · rintro ⟨r, hr, h⟩
    exact legal_of_holds hr h

/-! ### The three reasons -/

/-- A field is not 0 when one of its bits is 1. -/
theorem extractLsb'_ne_zero_iff {w : CmdWord} {i n : Nat} :
    w.extractLsb' i n ≠ 0 ↔ ∃ j, i ≤ j ∧ j < i + n ∧ w.getLsbD j = true := by
  rw [Ne, extractLsb'_eq_zero_iff]
  simp

/-- A reserved bit is 1. -/
theorem rsvField_ne_zero_iff {w : CmdWord} : rsvField w ≠ 0 ↔ w.getLsbD 19 = true ∨ w.getLsbD 20 = true := by
  rw [rsvField, extractLsb'_ne_zero_iff]
  constructor
  · rintro ⟨j, h19, h20, hj⟩
    obtain rfl | rfl : j = 19 ∨ j = 20 := by omega
    · exact .inl hj
    · exact .inr hj
  · rintro (h | h)
    · exact ⟨19, by decide, by decide, h⟩
    · exact ⟨20, by decide, by decide, h⟩

/-- A format whose operand bits from `m` up must be 0 rejects a word for one of them. -/
theorem mustBeZero_error_iff {w : CmdWord} {m n : Nat} {x : Instr} (hmn : m + n = 19) :
    (∃ e, (if w.extractLsb' m n = 0 then .ok x else .error .mustBeZero : Except IllegalWord Instr) = .error e) ↔
      ∃ j, m ≤ j ∧ j ≤ 18 ∧ w.getLsbD j = true := by
  have hlast : ∀ j, j ≤ 18 ↔ j < m + n := by omega
  simp only [hlast, ← extractLsb'_ne_zero_iff]
  split
  next hzero => exact ⟨nofun, fun hne => absurd hzero hne⟩
  next hne => exact ⟨fun _ => hne, fun _ => ⟨_, rfl⟩⟩

/-- A word is rejected for its operation code, a reserved bit, or a bit that its format wants to be 0. -/
theorem illegal_iff (w : CmdWord) : (∃ e, decode w = .error e) ↔
    (5 ≤ (w.extractLsb' 21 3).toNat ∨ w.getLsbD 19 = true ∨ w.getLsbD 20 = true ∨
     (w.extractLsb' 21 3 = 0 ∧ ∃ j, 5 ≤ j ∧ j ≤ 18 ∧ w.getLsbD j = true) ∨
     (w.extractLsb' 21 3 = 1 ∧ ∃ j, 8 ≤ j ∧ j ≤ 18 ∧ w.getLsbD j = true) ∨
     (w.extractLsb' 21 3 = 2 ∧ ∃ j, 1 ≤ j ∧ j ≤ 18 ∧ w.getLsbD j = true) ∨
     (w.extractLsb' 21 3 = 3 ∧ ∃ j, 16 ≤ j ∧ j ≤ 18 ∧ w.getLsbD j = true)) := by
  rw [← or_assoc (a := w.getLsbD 19 = true), ← rsvField_ne_zero_iff, ← opField]
  rcases decode_cases w with ⟨hop, hd⟩ | ⟨hrsv, hd⟩ | ⟨hrsv, hformat⟩
  · exact ⟨fun _ => .inl hop, fun _ => ⟨_, hd⟩⟩
  · exact ⟨fun _ => .inr (.inl hrsv), fun _ => ⟨_, hd⟩⟩
  · rcases hformat with ⟨hop, hd⟩ | ⟨hop, hd⟩ | ⟨hop, hd⟩ | ⟨hop, hd⟩ | ⟨hop, hd⟩
    · rw [hd, decodeE, mustBeZero_error_iff rfl]
      simp [hop, hrsv]
    · rw [hd, decodeS, mustBeZero_error_iff rfl]
      simp [hop, hrsv]
    · rw [hd, decodeL, mustBeZero_error_iff rfl]
      simp [hop, hrsv]
    · rw [hd, decodeW, mustBeZero_error_iff rfl]
      simp [hop, hrsv]
    · rw [hd, decodeR]
      simp [hop, hrsv]

/-- Settles O4, from the rows' words, the rows' operation codes and the decoder's answers. -/
theorem legalExactlyWhenInATableRow : Obligations.LegalExactlyWhenInATableRow :=
  ⟨legal_iff_in_row, fun _ _ hr _ hq => row_unique hr hq, illegal_iff⟩

end Sys2Proof
end

section
/-!
How many words each operation has (spec/30_encoding.md R85).
-/
namespace Sys2Proof

/-- As many words decode to an operation as it has operands, here the values of the type `α`. -/
theorem ncard_words {α : Type} {S : Set CmdWord} {n : Nat} (f : α → Instr) (hf : f.Injective)
    (hS : ∀ w, w ∈ S ↔ ∃ a, decode w = .ok (f a)) (hn : Nat.card α = n) : S.ncard = n := by
  have hencode : (encode ∘ f).Injective := fun a b h => hf <| Except.ok.inj <|
    calc .ok (f a) = decode (encode (f a)) := (decodeOfEncodeIsTheInstruction (f a)).symm
      _ = .ok (f b) := decode_eq_ok_iff.2 h.symm
  have hrange : S = Set.range (encode ∘ f) := by
    ext w
    simp [hS, decode_eq_ok_iff]
  rw [hrange, Set.ncard_range_of_injective hencode, hn]

/-- How many values a field of `n` bits has. -/
theorem card_field (n : Nat) : Fintype.card (BitVec n) = 2 ^ n := by
  rw [← FinEnum.card_eq_fintypeCard, FinEnum.card_bitVec]

/-- The digits that have a pattern are ten (spec/30_encoding.md R85). -/
theorem card_validDigits : Fintype.card {d : BitVec 4 // d.toNat ≤ 9} = 10 := by decide

/-- Settles O5: the round trip gives the first clause, and the operands of each operation are counted. -/
theorem decodeIsTotalWithTheStatedCounts : Obligations.DecodeIsTotalWithTheStatedCounts := by
  refine ⟨fun w => ?_, ?_, ?_, ?_, ?_, ?_, ?_⟩
  · cases h : decode w with
    | error e => exact .inr ⟨e, rfl⟩
    | ok i => exact .inl ⟨i, rfl, legalWordIsTheWordOfItsInstruction w i h, fun j hj => (Except.ok.inj hj).symm⟩
  · exact ncard_words (fun p : BitVec 4 × Bool => .enc p.1 p.2) (fun p q h => by grind) (fun w => by simp)
      (by simp [card_field])
  · exact ncard_words (fun p : {d : BitVec 4 // d.toNat ≤ 9} × Bool => .enc p.1 p.2) (fun p q h => by grind)
      (fun w => by simp [and_comm]) (by simp [card_validDigits])
  · exact ncard_words .send (fun p q h => by grind) (fun w => Iff.rfl) (by simp [card_field])
  · exact ncard_words .latch (fun p q h => by grind) (fun w => Iff.rfl) (by simp)
  · exact ncard_words (fun p : Byte × Byte => .write p.1 p.2) (fun p q h => by grind) (fun w => by simp)
      (by simp [card_field])
  · exact ncard_words (fun p : Word × Bool × BitVec 2 => .render p.1 p.2.1 p.2.2) (fun p q h => by grind)
      (fun w => by simp) (by simp [card_field])

end Sys2Proof
end

section
/-!
The assembler (spec/30_encoding.md R86).
-/
namespace Sys2Proof

/-- A well-formed command gives its word. -/
theorem assemble_of_wellFormed {c : AsmCmd} (h : c.wellFormed = true) : assemble c = some c.toWord := if_pos h

/-- A command assembles when it is well formed. -/
theorem assembles_iff {c : AsmCmd} : (∃ w, assemble c = some w) ↔ c.wellFormed = true := by
  constructor
  · rintro ⟨w, h⟩
    by_contra hc
    cases (if_neg hc).symm.trans h
  · exact fun h => ⟨_, assemble_of_wellFormed h⟩

/-! ### The commands whose operands fit -/

theorem assemble_enc {d dp : Nat} (hd : d ≤ 15) (hdp : dp ≤ 1) :
    assemble (.enc d (some dp)) = some (encode (.enc (BitVec.ofNat 4 d) (decide (dp = 1)))) :=
  assemble_of_wellFormed (by simp [AsmCmd.wellFormed, hd, hdp])

theorem assemble_enc_none {d : Nat} (hd : d ≤ 15) :
    assemble (.enc d none) = some (encode (.enc (BitVec.ofNat 4 d) false)) :=
  assemble_of_wellFormed (by simp [AsmCmd.wellFormed, hd])

theorem assemble_encDp {d : Nat} (hd : d ≤ 15) :
    assemble (.encDp d) = some (encode (.enc (BitVec.ofNat 4 d) true)) :=
  assemble_of_wellFormed (by simp [AsmCmd.wellFormed, hd])

theorem assemble_send {b : Nat} (hb : b ≤ 255) : assemble (.send b) = some (encode (.send (BitVec.ofNat 8 b))) :=
  assemble_of_wellFormed (by simp [AsmCmd.wellFormed, hb])

theorem assemble_latch {l : Nat} (hl : l ≤ 1) : assemble (.latch l) = some (encode (.latch (decide (l = 1)))) :=
  assemble_of_wellFormed (by simp [AsmCmd.wellFormed, hl])

theorem assemble_write {g m : Nat} (hg : g ≤ 255) (hm : m ≤ 255) :
    assemble (.write g m) = some (encode (.write (BitVec.ofNat 8 g) (BitVec.ofNat 8 m))) :=
  assemble_of_wellFormed (by simp [AsmCmd.wellFormed, hg, hm])

theorem assemble_render_none {v : Nat} (hv : v ≤ 65535) :
    assemble (.render v none) = some (encode (.render (BitVec.ofNat 16 v) false 0)) :=
  assemble_of_wellFormed (by simp [AsmCmd.wellFormed, hv])

theorem assemble_render {v i : Nat} (hv : v ≤ 65535) (hi : i ≤ 3) :
    assemble (.render v (some i)) = some (encode (.render (BitVec.ofNat 16 v) true (BitVec.ofNat 2 i))) :=
  assemble_of_wellFormed (by simp [AsmCmd.wellFormed, hv, hi])

theorem assemble_word {n : Nat} (hn : n < 2 ^ 24) : assemble (.word n) = some (BitVec.ofNat 24 n) :=
  assemble_of_wellFormed (decide_eq_true hn)

/-- Settles O6: the bounds are those of `wellFormed`, and the words, made by `encode`, are read back. -/
theorem assembledWordsDecodeToTheirOperands : Obligations.AssembledWordsDecodeToTheirOperands := by
  have readBack := decodeOfEncodeIsTheInstruction
  refine ⟨fun d dp => ?_, fun d => ?_, fun d => ?_, fun b => ?_, fun l => ?_, fun g m => ?_, fun v => ?_, fun v i => ?_,
    fun n => ?_, fun d dp hd hdp => ?_, fun d hd => ?_, fun b hb => ?_, fun l hl => ?_, fun g m hg hm => ?_,
    fun v hv => ?_, fun v i hv hi => ?_, fun n hn => ?_, rfl, rfl, rfl⟩
  -- Which operands fit, for the nine forms of a command with operands.
  iterate 9 simp [assembles_iff, AsmCmd.wellFormed]
  -- What the words of the operands that fit are read as.
  · exact ⟨_, _, assemble_enc hd hdp, Nat.mod_eq_of_lt (by omega), readBack _⟩
  · rw [assemble_enc_none hd, assemble_encDp hd, assemble_enc hd (Nat.zero_le 1), assemble_enc hd le_rfl]
    exact ⟨rfl, rfl⟩
  · exact ⟨_, _, assemble_send hb, Nat.mod_eq_of_lt (by omega), readBack _⟩
  · exact ⟨_, assemble_latch hl, readBack _⟩
  · exact ⟨_, _, _, assemble_write hg hm, Nat.mod_eq_of_lt (by omega), Nat.mod_eq_of_lt (by omega), readBack _⟩
  · exact ⟨_, _, assemble_render_none hv, Nat.mod_eq_of_lt (by omega), readBack _⟩
  · exact ⟨_, _, _, assemble_render hv hi, Nat.mod_eq_of_lt (by omega), Nat.mod_eq_of_lt (by omega), readBack _⟩
  · exact ⟨_, assemble_word hn, Nat.mod_eq_of_lt hn⟩

/-- Settles O1: a word decodes to the operation whose word it is; the three illegal ones are evaluated. -/
theorem workedWordsDecode : Obligations.WorkedWordsDecode := by
  simp only [Obligations.WorkedWordsDecode, decode_eq_ok_iff]
  decide

end Sys2Proof
end

section
/-!
The segment encoder (spec/40_segment_encoder.md): its values, and what its operation `ENC` answers.
-/
namespace Sys2Proof.Machine

/-! ### The decimal-point bit of a byte -/

/-- The mask 0x7F keeps bits 6 to 0. -/
theorem and_0x7F_getLsbD (b : Byte) (j : Nat) : (b &&& 0x7F).getLsbD j = (b.getLsbD j && decide (j < 7)) := by
  have hmask : (0x7F : Byte) = (BitVec.allOnes 7).setWidth 8 := by decide
  rw [BitVec.getLsbD_and, hmask, BitVec.getLsbD_setWidth, BitVec.getLsbD_allOnes]
  by_cases hj : j < 7
  · simp [hj, show j < 8 by omega]
  · simp [hj]

/-- Where bit 7 is set, clearing it subtracts its weight. -/
theorem and_0x7F_eq_sub {b : Byte} (h : b.getLsbD 7 = true) : b &&& 0x7F = b - 0x80 := by
  have hbit : b &&& 0x80 = 0x80 := (BitVec.and_twoPow b 7).trans (if_pos h)
  have hsplit : (b &&& 0x7F) + 0x80 = b := calc
    (b &&& 0x7F) + 0x80 = (b &&& 0x7F) ||| (b &&& 0x80) := by
      rw [hbit, BitVec.add_eq_or_of_and_eq_zero]
      simp [BitVec.and_assoc]
    _ = b &&& (0x7F ||| 0x80) := BitVec.and_or_distrib_left.symm
    _ = b := BitVec.and_allOnes
  exact BitVec.eq_sub_iff_add_eq.mpr hsplit

/-! ### The values of the encoder -/

/-- The encoder is read off the table entry of its digit. -/
theorem encodeDigit_eq (c : Config) (d : Fin 10) (dp : Bool) :
    encodeDigit c d dp = if dp then c.segTab[d] &&& 0x7F else c.segTab[d] := rfl

@[simp] theorem encodeDigit_false (c : Config) (d : Fin 10) : encodeDigit c d false = c.segTab[d] := rfl

@[simp] theorem encodeDigit_true (c : Config) (d : Fin 10) : encodeDigit c d true = c.segTab[d] &&& 0x7F := rfl

/-- Settles O7: bit 7 of an accepted table entry is set, and the mask takes that bit away. -/
theorem encoderReadsTheTableAndClearsBitSeven : Obligations.EncoderReadsTheTableAndClearsBitSeven := by
  intro c ⟨_, hbit7⟩ d
  refine ⟨fun e dp he => ?_, rfl, rfl, and_0x7F_eq_sub (hbit7 d), fun j hj => ?_, hbit7 d, ?_⟩
  · rw [encodeDigit_eq, encodeDigit_eq, he]
  · rw [encodeDigit_true, encodeDigit_false, and_0x7F_getLsbD, decide_eq_true hj, Bool.and_true]
  · exact (and_0x7F_getLsbD _ 7).trans (Bool.and_false _)

/-- Settles O8, by evaluating the encoder on the ten digits. -/
theorem defaultPatternsOfTheTenDigits : Obligations.DefaultPatternsOfTheTenDigits :=
  ⟨by decide, by decide⟩

/-! ### The operation -/

/-- A state is itself, whatever `HAZ1` says. -/
theorem MatchesUnlessHaz1.refl (s : State) : MatchesUnlessHaz1 s s := ⟨rfl, fun _ => rfl⟩

theorem exec_enc (digit : BitVec 4) (dp : Bool) (s : State) : exec (.enc digit dp) s = execEnc digit dp s := rfl

/-- In IDLE the end of a command is its response. -/
theorem done_of_idle {s : State} (hs : s.st = .idle) (c : Status) : done c s = respond c s.pattern s := by
  simp [done, respond, hs]

/-- `ENC` on the word's four bits of a digit encodes that digit. -/
theorem exec_enc_digit (d : Fin 10) (dp : Bool) (s : State) :
    exec (.enc (BitVec.ofNat 4 d.val) dp) s =
      .next (respond .ok (encodeDigit s.cfg d dp) { s with pattern := encodeDigit s.cfg d dp }) := by
  have hd : (BitVec.ofNat 4 d.val).toNat = d.val := Nat.mod_eq_of_lt (by omega)
  have hlt : (BitVec.ofNat 4 d.val).toNat < 10 := by omega
  rw [exec_enc, execEnc_valid hlt, show (⟨_, hlt⟩ : Fin 10) = d from Fin.ext hd]

/-- Settles O18: the rejection ends the command in IDLE, where only its response changes the state. -/
theorem encRejectsADigitAboveNine : Obligations.EncRejectsADigitAboveNine := by
  intro s d dp hs hd
  have hexec : exec (.enc d dp) s = .next (respond .invalidDigit s.pattern s) := by
    rw [exec_enc, execEnc_invalid (by omega), raise_eq, done_of_idle hs, Rejection.status]
  exact ⟨_, hexec, .refl _⟩

/-- Settles O19, with the pattern read off the table. -/
theorem encReturnsThePatternOfItsDigit : Obligations.EncReturnsThePatternOfItsDigit := by
  intro s d dp _
  exact ⟨_, exec_enc_digit d dp s, .refl _⟩

end Sys2Proof.Machine
end

section
/-!
The serial bit-banger (spec/41_serial_out.md): what each SHIFT step does to the lines and what it leaves, and the 25 steps
of `SEND` as one state.
-/
namespace Sys2Proof.Machine

variable {s t : State}

/-! ### The assignment of a micro-step -/

/-- The micro-steps that set the data line (spec/41_serial_out.md R121). -/
theorem frameUop_data {u : Nat} (h1 : 1 ≤ u) (h2 : u ≤ 48) (hm : (u - 1) % 3 = 0) (s : State) :
    frameUop u s = assignPin .data (s.frame.getLsbD (15 - (u - 1) / 3)) s := by
  rw [frameUop_inner h1 h2, shiftUop_eq, if_pos hm]

/-- The micro-steps that raise and lower the clock line (spec/41_serial_out.md R121). -/
theorem frameUop_clk {u : Nat} (h1 : 1 ≤ u) (h2 : u ≤ 48) (hm : (u - 1) % 3 ≠ 0) (s : State) :
    frameUop u s = assignPin .clk (decide ((u - 1) % 3 = 1)) s := by
  rw [frameUop_inner h1 h2, shiftUop_eq, if_neg hm]

/-! ### What a SHIFT step does -/

/-- A SHIFT step makes the assignment of its micro-step and advances `UPC`, or responds, or starts a dwell
(spec/43_display_multiplexer.md R172 rows 10 to 14). -/
theorem StepEvent.shift_cases (h : StepEvent s t) (hr : s.portNow.rst = false) (hs : s.st = .shift) :
    (¬ (s.opr = .send ∧ s.upc.val = 24) ∧ s.upc.val ≠ 49 ∧
      t = { frameUop s.upc.val (beginStep s) with upc := s.upc + 1 }) ∨
    (((s.opr = .send ∧ s.upc.val = 24) ∨ (s.opr = .write ∧ s.upc.val = 49)) ∧
      t = done .ok (frameUop s.upc.val (beginStep s))) ∨
    (s.opr = .render ∧ s.upc.val = 49 ∧
      t = { frameUop s.upc.val (beginStep s) with dwellcnt := s.cfg.dwellTicks, st := .dwell }) := by
  cases h with
  | reset hrst => simp [hr] at hrst
  | quiet _ hs' | illegal _ hs' | dwell _ hs' | sweepEnd _ hs' => simp [hs] at hs'
  | encRejected hT | enc hT | latch hT | send hT | write hT | render hT => simp [Takes, hs] at hT
  | nextDigit hE => simp [EndsDwellBeforeLastDigit, hs] at hE
  | advance _ _ ho hu hp =>
    refine .inl ⟨?_, by omega, by rw [hp, pinStep]⟩
    rintro ⟨hsend, h24⟩
    simp [hsend, h24] at ho
  | sendEnd _ _ ho hu =>
    have hclk : frameUop 24 (beginStep s) = assignPin .clk false (beginStep s) :=
      frameUop_clk (by decide) (by decide) (by decide) _
    exact .inr (.inl ⟨.inl ⟨ho, by simp [hu]⟩, by simp [hu, hclk]⟩)
  | writeEnd _ _ ho hu => exact .inr (.inl ⟨.inr ⟨ho, by simp [hu]⟩, by simp [hu]⟩)
  | startDwell _ _ ho hu => exact .inr (.inr ⟨ho, by simp [hu], by simp [hu]⟩)

/-- On the wire, a SHIFT step does what its micro-step does, whatever the operation. -/
theorem StepEvent.sameWire_of_shift (h : StepEvent s t) (hr : s.portNow.rst = false) (hs : s.st = .shift) :
    SameWire t (frameUop s.upc.val (beginStep s)) := by
  rcases h.shift_cases hr hs with ⟨-, -, rfl⟩ | ⟨-, rfl⟩ | ⟨-, -, rfl⟩ <;> exact ⟨rfl, rfl, rfl, rfl, rfl, rfl⟩

/-- A micro-step at the start of a step changes the lines, the external register and `TRACE` only. -/
theorem frameUop_eq_withLinesOf (u : Nat) (s : State) :
    frameUop u (beginStep s) = s.withLinesOf (frameUop u (beginStep s)) := by
  obtain ⟨p, b, hp⟩ := frameUop_assigns u (beginStep s)
  rw [hp]
  cases p <;> rfl

/-- Off the wire, a SHIFT step writes `UPC` alone, or responds, or starts a dwell. -/
theorem StepEvent.offWire_of_shift (h : StepEvent s t) (hr : s.portNow.rst = false) (hs : s.st = .shift) :
    (¬ (s.opr = .send ∧ s.upc.val = 24) → s.upc.val ≠ 49 → t = { s.withLinesOf t with upc := t.upc }) ∧
    ((s.opr = .send ∧ s.upc.val = 24) ∨ (s.opr = .write ∧ s.upc.val = 49) →
      t = { s.withLinesOf t with
            st := .idle, status := .ok, rsp := some ⟨.ok, s.pattern⟩
            rspLog := s.rspLog ++ [⟨s.stepNo + 1, ⟨.ok, s.pattern⟩⟩] }) ∧
    (s.opr = .render → s.upc.val = 49 →
      t = { s.withLinesOf t with dwellcnt := s.cfg.dwellTicks, st := .dwell }) := by
  have hkeep := frameUop_eq_withLinesOf s.upc.val s
  rcases h.shift_cases hr hs with ⟨hne, h49, rfl⟩ | ⟨hend, rfl⟩ | ⟨ho, h49, rfl⟩
  · exact ⟨fun _ _ => by rw [hkeep]; rfl, fun hend => absurd hend (not_or.mpr ⟨hne, fun h => h49 h.2⟩),
      fun _ h => absurd h h49⟩
  · exact ⟨fun hne h49 => absurd hend (not_or.mpr ⟨hne, fun h => h49 h.2⟩), fun _ => by rw [hkeep]; rfl,
      fun ho _ => by simp [ho] at hend⟩
  · exact ⟨fun _ h => absurd h49 h, by simp [ho], fun _ _ => by rw [hkeep]; rfl⟩

/-- Settles O24: on the wire by the assignment of the micro-step and the edge it makes, off the wire by how the micro-step
ends. -/
theorem shiftStepMakesItsAssignment : Obligations.ShiftStepMakesItsAssignment := by
  intro s hc hr hs ho
  obtain ⟨t, ht⟩ := ControlLegal.next ⟨hc, fun _ => ho, by simp [hs]⟩
  have hE := step_event ht
  have hw := hE.sameWire_of_shift hr hs
  obtain ⟨-, -, hupc, -, -⟩ := hE.sequencer_of_shift hr hs
  obtain ⟨hadvance, hrespond, hdwell⟩ := hE.offWire_of_shift hr hs
  refine ⟨t, ht, fun h0 => ?_, fun h49 => ?_, fun h1 h2 hm => ?_, fun h1 h2 hm => ?_, fun h1 h2 hm => ?_, ?_,
    fun hz => ?_, fun hend h49 => ?_, hrespond, hdwell⟩
  · rw [h0, frameUop_zero] at hw
    exact ⟨by simpa using hw.trace, hw.latch, hw.clk, hw.data⟩
  · rw [h49, frameUop_last] at hw
    exact ⟨by simpa using hw.trace, hw.latch, hw.clk, hw.data⟩
  · rw [frameUop_data h1 h2 hm] at hw
    exact ⟨by simpa using hw.trace, hw.data, hw.clk, hw.latch⟩
  · rw [frameUop_clk h1 h2 (by omega), hm] at hw
    exact ⟨by simpa using hw.trace, hw.clk, hw.data, hw.latch⟩
  · rw [frameUop_clk h1 h2 (by omega), hm] at hw
    exact ⟨by simpa using hw.trace, hw.clk, hw.data, hw.latch⟩
  · obtain ⟨hclkEdge, hnoEdge⟩ := shiftStageMovesAtClockEdgesOnly s t ht
    split
    · next h => exact hclkEdge h.1 h.2
    · next h => exact hnoEdge h
  · obtain ⟨hlatchEdge, hnoEdge⟩ := outputStageMovesAtLatchEdgesOnly s t ht hz
    split
    · next h => exact hlatchEdge h.1 h.2
    · next h => exact hnoEdge h
  · obtain ⟨-, hnext, -⟩ := hupc hend h49
    exact ⟨hnext, hadvance hend h49⟩

/-! ### `SEND` -/

theorem exec_send (b : Byte) (s : State) : exec (.send b) s = execSend b s := rfl

/-- Settles O21, the state that `execSend` answers. -/
theorem sendAcceptLoadsTheByte : Obligations.SendAcceptLoadsTheByte :=
  fun s b _ => ⟨_, exec_send b s, .refl _⟩

/-- Bit `k` of a byte is sent as the last but `k`. -/
theorem byteBits_getD (b : Byte) {k : Nat} (hk : k < 8) : (byteBits b).getD (7 - k) false = b.getLsbD k := by
  rw [← frameBits_byte b 0, List.getD_eq_getElem _ _ (by simp; omega)]
  simp [frameBits, frame_getLsbD, show 15 - (7 - k) = k + 8 by omega]

/-- A byte shifted in stands in the low half of the shift stage, the old low half above it (spec/20_memory.md R59). -/
theorem foldl_shiftIn_byteBits (b : Byte) (sr : Word) :
    (byteBits b).foldl shiftIn sr = sr.extractLsb' 0 8 ++ b := by
  apply BitVec.eq_of_getLsbD_eq
  intro k hk
  rw [foldl_shiftIn_getLsbD _ _ _ hk, frame_getLsbD, show (byteBits b).length = 8 from rfl]
  by_cases h8 : k < 8
  · rw [if_pos h8, if_pos h8, byteBits_getD b h8]
  · rw [if_neg h8, if_neg h8, BitVec.getLsbD_extractLsb', decide_eq_true (by omega), Bool.true_and, Nat.zero_add]

/-- The state when `SEND b`, accepted in `s`, has completed (spec/41_serial_out.md R120). -/
def afterSend (b : Byte) (s : State) : State :=
  { s with
    frame := b ++ 0x00#8, opr := .send, upc := 24, data := b.getLsbD 0
    status := .ok, rsp := some ⟨.ok, s.pattern⟩
    rspLog := s.rspLog ++ [⟨s.stepNo + 25, ⟨.ok, s.pattern⟩⟩]
    trace := s.trace ++ byteEvents b
    envSr := s.envSr.extractLsb' 0 8 ++ b
    haz1 := s.haz1 || s.latch
    stepNo := s.stepNo + 25, inputs := s.inputs.drop 25 }

/-- The last bit of a stretch of `FRAME` is sent after the others. -/
theorem frameBits_succ (f : Word) (k n : Nat) :
    frameBits f k (n + 1) = frameBits f k n ++ [f.getLsbD (15 - (k + n))] := by
  simp [frameBits, List.range'_concat]

/-- The last micro-step of `SEND` lowers the clock line and responds (spec/43_display_multiplexer.md R172 row 11). -/
theorem step_sendLast (hc : s.cfg.wf) (hr : s.portNow.rst = false) (hs : s.st = .shift) (ho : s.opr = .send)
    (hu : s.upc = 24) : step s = .next (done .ok (assignPin .clk false (beginStep s))) := by
  rw [step_send hc hr hs ho (by simp [hu]) (by simp [hu]), sendMicroStep_last (s := beginStep s) hu]

/-- The 24 micro-steps of a `SEND`, the last of which responds (spec/41_serial_out.md R120). -/
theorem run_sendByte (hc : s.cfg.wf) (hs : s.st = .shift) (hclk : s.clk = false) (hu : s.upc = 1)
    (ho : s.opr = .send) (hr : NoReset 24 s) :
    run 24 s = .next
      { s with
        st     := .idle
        data   := s.frame.getLsbD 8
        envSr  := (frameBits s.frame 0 8).foldl shiftIn s.envSr
        trace  := s.trace ++ bitEvents (frameBits s.frame 0 8)
        upc    := 24
        status := .ok
        rsp    := some ⟨.ok, s.pattern⟩
        rspLog := s.rspLog ++ [⟨s.stepNo + 24, ⟨.ok, s.pattern⟩⟩]
        stepNo := s.stepNo + 24
        inputs := s.inputs.drop 24 } := by
  have hfirst := run_send hc hs hclk hu ho (hr.mono (by decide))
  refine (run_add (n := 1) hfirst).trans (Eq.trans (run_succ_of_step 0
    (step_sendLast hc (NoReset.portNow (k := 0) (NoReset.drop (j := 23) hr rfl)) hs ho rfl)) ?_)
  rw [run_zero]
  congr 1
  apply State.ext <;> simp [hclk, frameBits_succ _ 0 7, bitEvents_append, bitEvents]

/-- The accept step and the 24 micro-steps of a `SEND`. -/
theorem run_sendCommand {b : Byte} (hA : Accepts s (encode (.send b))) (hclk : s.clk = false) (hr : NoReset 25 s) :
    run 25 s = .next (afterSend b s) := by
  have haccept : step s = .next { beginStep s with
      frame := b ++ 0#8, opr := .send, upc := 1, st := .shift, haz1 := s.haz1 || s.latch } :=
    step_takes hA.cfgWf (hA.takes (decode_encode_send b))
  refine (run_succ_of_step 24 haccept).trans (Eq.trans (run_sendByte hA.cfgWf rfl hclk rfl rfl (hr.step rfl)) ?_)
  congr 1
  apply State.ext
  case data => exact frame_getLsbD b 0 8
  all_goals simp [afterSend, hA.idle, frameBits_byte, foldl_shiftIn_byteBits, byteEvents, Nat.add_comm]

/-- Settles O26: the run ends in the stated state itself. -/
theorem sendCompletesIn25Steps : Obligations.SendCompletesIn25Steps :=
  fun _ _ hA hclk hr => ⟨_, run_sendCommand hA hclk hr, .refl _⟩

/-- The levels at the clock pulses of a list of bits are the bits, wherever the data line stood. -/
theorem sampledBits_bitEvents (bs : List Bool) (d : Bool) : sampledBits d (bitEvents bs) = bs := by
  induction bs generalizing d with
  | nil => rfl
  | cons b bs ih => simp [bitEvents, sampledBits, ih]

/-- Settles O27: the events are those of the byte's bits, and the byte is the low half of the shift stage. -/
theorem sendRoundTrip : Obligations.SendRoundTrip :=
  fun _ b hA hclk hr => ⟨_, byteEvents b, run_sendCommand hA hclk hr, rfl, rfl, sampledBits_bitEvents _ _,
    frame_lo _ _, frame_hi _ _⟩

end Sys2Proof.Machine
end

section
/-!
The shift-register frame protocol (spec/42_shift_register_frame.md): `LATCH`, the 51 steps of `WRITE` as one state, and
the frame built by hand from `LATCH` and `SEND`.
-/
namespace Sys2Proof

/-- The words of `LATCH` are those of its row, and bit 0 is the level (spec/42_shift_register_frame.md R141). -/
theorem latchRow_iff (w : CmdWord) : w &&& 0xFFFFFE = 0x400000 ↔ decode w = .ok (.latch (w.getLsbD 0)) := by
  constructor
  · intro h
    have hrow : (⟨0xFFFFFE, 0x400000⟩ : OpcodeRow) ∈ opcodeTable := by decide
    have hholds : (⟨0xFFFFFE, 0x400000⟩ : OpcodeRow).holds w = true := beq_iff_eq.mpr h
    have hzero : w.extractLsb' 1 18 = 0 := field_of_holds hholds (by decide)
    rw [decode_formatL (rsvField_of_holds hrow hholds) (opField_of_holds hrow hholds), decodeL, if_pos hzero]
  · intro h
    obtain ⟨-, hholds⟩ := encode_in_row (.latch (w.getLsbD 0))
    rw [decode_eq_ok_iff.mp h] at hholds
    exact beq_iff_eq.mp hholds

namespace Machine

variable {s t : State}

/-- The same state matches, whatever `HAZ1` says. -/
theorem MatchesUnlessHaz1.of_eq (h : t = s) : MatchesUnlessHaz1 t s := h ▸ .refl t

/-! ### `LATCH` -/

theorem exec_latch (l : Bool) (s : State) : exec (.latch l) s = execLatch l s := rfl

/-- Settles O20: the words are those of the row of `LATCH`, and the state is the one that `execLatch` answers. -/
theorem latchDrivesTheLatchLine : Obligations.LatchDrivesTheLatchLine := by
  refine ⟨fun w => (latchRow_iff w).trans ⟨fun h => ⟨_, h, rfl⟩, ?_⟩, fun s l _ => ⟨_, exec_latch l s, .of_eq ?_⟩⟩
  · rintro ⟨_, h, rfl⟩
    exact h
  · apply State.ext <;> simp

/-- The state when `LATCH l`, accepted in `s`, has completed (spec/42_shift_register_frame.md R141). -/
def afterLatch (l : Bool) (s : State) : State := respond .ok s.pattern (assignPin .latch l (beginStep s))

/-- The one step of a `LATCH`. -/
theorem run_latchCommand {l : Bool} (hA : Accepts s (encode (.latch l))) : run 1 s = .next (afterLatch l s) :=
  run_succ_of_step 0 (step_takes hA.cfgWf (hA.takes (decode_encode_latch l)))

/-! ### `WRITE` -/

theorem exec_write (g m : Byte) (s : State) : exec (.write g m) s = execWrite g m s := rfl

/-- Settles O22, the state that `execWrite` answers. -/
theorem writeAcceptLoadsTheFrame : Obligations.WriteAcceptLoadsTheFrame :=
  fun s g m _ => ⟨_, exec_write g m s, .refl _⟩

/-- The shift stage when the sixteen bits of `FRAME` have been clocked out. With the clock line high at the start, the
first bit makes no rising edge and is not shifted in. -/
def shiftedFrame (s : State) : Word :=
  (frameBits s.frame 1 15).foldl shiftIn (if !s.clk then shiftIn s.envSr (s.frame.getLsbD 15) else s.envSr)

/-- The bits of `FRAME` are its first one and the others. -/
theorem frameBits_head (f : Word) : frameBits f 0 16 = f.getLsbD 15 :: frameBits f 1 15 := rfl

/-- With the clock line low at the start, the shift stage takes the whole frame (spec/20_memory.md R62). -/
theorem shiftedFrame_of_clk_low (hclk : s.clk = false) : shiftedFrame s = s.frame := by
  rw [shiftedFrame, hclk, Bool.not_false, if_pos rfl, ← List.foldl_cons, ← frameBits_head, foldl_shiftIn_frameBits]

@[simp] theorem afterBit_cfg (b : Bool) (s : State) : (afterBit b s).cfg = s.cfg := rfl
@[simp] theorem afterBit_st (b : Bool) (s : State) : (afterBit b s).st = s.st := rfl
@[simp] theorem afterBit_opr (b : Bool) (s : State) : (afterBit b s).opr = s.opr := rfl
@[simp] theorem afterBit_upc (b : Bool) (s : State) : (afterBit b s).upc = s.upc + 1 + 1 + 1 := rfl

/-- The 49 micro-steps of a frame before its last, whatever the level of the clock line, which the first bit lowers
(spec/42_shift_register_frame.md R146). -/
theorem run_frame_anyClk (hc : s.cfg.wf) (hs : s.st = .shift) (hu : s.upc = 0)
    (ho : s.opr = .write ∨ s.opr = .render) (hr : NoReset 49 s) :
    run 49 s = .next
      { s with
        data   := s.frame.getLsbD 0
        clk    := false
        latch  := false
        envSr  := shiftedFrame s
        trace  := s.trace ++ ⟨.latch, false⟩ :: bitEvents (frameBits s.frame 0 16)
        upc    := 49
        stepNo := s.stepNo + 49
        rsp    := none
        inputs := s.inputs.drop 49 } := by
  set a := pinStep .latch false s with ha
  have hc' : a.cfg.wf := by simpa [ha] using hc
  have hs' : a.st = .shift := by simpa [ha] using hs
  have ho' : a.opr = .write ∨ a.opr = .render := by simpa [ha] using ho
  have hu' : a.upc = 1 := by simp [ha, hu]
  have hr' : NoReset 48 a := NoReset.step (k := 48) hr (by simp [ha])
  have hlatch : step s = .next a := step_frameStart hc (NoReset.portNow (k := 48) hr) hs hu ho
  have hfirst := run_bit (k := 0) hc' hs' (by simp [hu']) (by decide) (.inr ho') (hr'.mono (by decide))
  have hrest := run_bits_eq 14 (k := 1) (u := 49) (s := afterBit (a.frame.getLsbD 15) a) hc' hs' rfl
    (by simp [hu']) (by decide) (.inr ho') (NoReset.drop (j := 3) hr' rfl) (by simp [hu'])
  refine (run_succ_of_step 48 hlatch).trans ((run_add (n := 45) hfirst).trans (hrest.trans (congrArg _ ?_)))
  apply State.ext
  case trace => simp [ha, afterBit, frameBits_head, bitEvents]
  all_goals simp [ha, afterBit, shiftedFrame]

/-- The state when `WRITE g, m`, accepted in `s`, has completed with `sr` in both stages of the external register
(spec/42_shift_register_frame.md R142, R147). -/
def afterWrite (g m : Byte) (sr : Word) (s : State) : State :=
  { s with
    frame := g ++ m, opr := .write, upc := 49, data := m.getLsbD 0, clk := false, latch := true
    status := .ok, rsp := some ⟨.ok, s.pattern⟩
    rspLog := s.rspLog ++ [⟨s.stepNo + 51, ⟨.ok, s.pattern⟩⟩]
    trace := s.trace ++ frameEvents g m
    envSr := sr, envOut := sr
    stepNo := s.stepNo + 51, inputs := s.inputs.drop 51 }

/-- The events of a frame, with its sixteen bits as one list. -/
theorem frameEvents_eq (g m : Byte) :
    frameEvents g m = ⟨.latch, false⟩ :: (bitEvents (byteBits g ++ byteBits m) ++ [⟨.latch, true⟩]) := by
  rw [bitEvents_append]
  rfl

/-- The last micro-step of `WRITE` raises the latch line and responds (spec/43_display_multiplexer.md R172 row 13). -/
theorem step_writeLast (hc : s.cfg.wf) (hr : s.portNow.rst = false) (hs : s.st = .shift) (ho : s.opr = .write)
    (hu : s.upc = 49) : step s = .next (done .ok (assignPin .latch true (beginStep s))) := by
  rw [step_write hc hr hs ho, writeMicroStep_last (s := beginStep s) hu]

/-- The accept step and the 50 micro-steps of a `WRITE`, whatever the level of the clock line. -/
theorem run_writeCommand {g m : Byte} (hA : Accepts s (encode (.write g m))) (hr : NoReset 51 s) :
    ∃ sr, run 51 s = .next (afterWrite g m sr s) ∧ (s.clk = false → sr = g ++ m) := by
  set a : State := { beginStep s with frame := g ++ m, opr := .write, upc := 0, st := .shift }
  have haccept : step s = .next a := step_takes hA.cfgWf (hA.takes (decode_encode_write g m))
  have hra : NoReset (49 + 1) a := hr.step rfl
  have hframe := run_frame_anyClk (s := a) hA.cfgWf rfl rfl (.inl rfl) (hra.mono (by decide))
  refine ⟨shiftedFrame a, ?_, fun hclk => shiftedFrame_of_clk_low hclk⟩
  refine (run_succ_of_step 50 haccept).trans ((run_add (n := 1) hframe).trans (Eq.trans (run_succ_of_step 0
    (step_writeLast hA.cfgWf (NoReset.portNow (k := 0) (NoReset.drop (j := 49) hra rfl)) rfl rfl rfl)) (congrArg _ ?_)))
  apply State.ext
  case data => exact frame_getLsbD g m 0
  case trace => simp [a, afterWrite, frameBits_frame, frameEvents_eq]
  all_goals simp [a, afterWrite, hA.idle, Nat.add_assoc]

/-- Settles O28: with the clock line low at the accept, the run ends in the stated state itself. -/
theorem writeCompletesIn51Steps : Obligations.WriteCompletesIn51Steps := by
  intro s g m hA hclk hr
  obtain ⟨sr, hrun, hsr⟩ := run_writeCommand hA hr
  refine ⟨_, hrun, .of_eq ?_⟩
  rw [hsr hclk, afterWrite, ← hclk]

/-! ### The order of the events of a frame -/

theorem countEvent_append (p : Pin) (b : Bool) (xs ys : List PinEvent) :
    countEvent p b (xs ++ ys) = countEvent p b xs + countEvent p b ys := List.countP_append

/-- Every bit raises the clock line once and lowers it once. -/
theorem countEvent_clk_bitEvents (b : Bool) (bs : List Bool) : countEvent .clk b (bitEvents bs) = bs.length := by
  induction bs with
  | nil => rfl
  | cons c bs ih =>
    have hcons : countEvent .clk b (bitEvents (c :: bs)) = countEvent .clk b (bitEvents bs) + 1 := by
      cases b <;> simp [countEvent, bitEvents]
    rw [hcons, ih, List.length_cons]

/-- No bit assigns the latch line. -/
theorem countEvent_latch_bitEvents (b : Bool) (bs : List Bool) : countEvent .latch b (bitEvents bs) = 0 := by
  induction bs with
  | nil => rfl
  | cons c bs ih =>
    rw [← ih]
    simp [countEvent, bitEvents]

/-- The events of a frame: each level of the clock line sixteen times, each level of the latch line once. -/
theorem countEvent_frameEvents (g m : Byte) (b : Bool) :
    countEvent .clk b (frameEvents g m) = 16 ∧ countEvent .latch b (frameEvents g m) = 1 := by
  rw [frameEvents_eq, ← List.singleton_append]
  simp only [countEvent_append, countEvent_clk_bitEvents, countEvent_latch_bitEvents]
  cases b <;> exact ⟨rfl, rfl⟩

/-- Settles O29: the events of the frame are appended whatever the level of the clock line, and counted. -/
theorem writeBracketsSixteenClockPulses : Obligations.WriteBracketsSixteenClockPulses := by
  intro s g m hA hr
  obtain ⟨sr, hrun, -⟩ := run_writeCommand hA hr
  have htrace : (afterWrite g m sr s).trace = s.trace ++ frameEvents g m := rfl
  refine ⟨_, byteBits g ++ byteBits m, hrun, rfl, rfl, by rw [htrace, frameEvents_eq], ?_, ?_, ?_, ?_, ?_⟩
  · rw [htrace, List.length_append]
    rfl
  all_goals simp [htrace, countEvent_append, countEvent_frameEvents]

/-! ### The latch edge of a frame -/

/-- Settles O30: on the wire a SHIFT step is its micro-step, and only the last one raises the latch line, over a shift
stage that holds the whole frame. -/
theorem frameAppearsAtItsLastMicroStepOnly : Obligations.FrameAppearsAtItsLastMicroStepOnly := by
  intro s hi hr hs ho
  obtain ⟨t, ht⟩ := hi.controlLegal.next
  have hE := step_event ht
  have hw := hE.sameWire_of_shift hr hs
  have hframe : t.frame = s.frame := hE.frame_eq hr (by simp [EndsDwellBeforeLastDigit, hs]) (by simp [Takes, hs])
    (by simp [Takes, hs]) (by simp [Takes, hs])
  refine ⟨t, ht, hframe, fun hu _ => hw.envOut.trans (frameUop_envOut (by omega) (beginStep s)), fun hu => ?_⟩
  obtain ⟨hsr, -, -⟩ := hi.frameEnd hs hu
  have hlatch : s.latch = false := hi.frameLatch hs ho (by simp [hu])
  have hedge : frameUop s.upc.val (beginStep s) = assignPin .latch true (beginStep s) := by
    rw [hu]
    exact frameUop_last _
  rw [hedge] at hw
  exact ⟨by simpa [hsr] using hw.envSr, fun _ => by simpa [hlatch, hsr] using hw.envOut⟩

/-! ### A frame built by hand -/

/-- The block is ready for the instruction `i`, with its clock line low, and the host issues the word of `i` and then the
words `ws`, with no idle step between them. -/
structure Issued (c : Config) (s : State) (i : Instr) (ws : List CmdWord) : Prop where
  cfgWf  : s.cfg.wf
  cfg    : s.cfg = c
  idle   : s.st = .idle
  clk    : s.clk = false
  inputs : s.inputs = programPorts c (encode i :: ws)

section

variable {c : Config} {i j : Instr} {ws : List CmdWord}

theorem wordSteps_encode (c : Config) (i : Instr) : wordSteps c (encode i) = instrSteps c i := by
  have hw : decode (encode i) = .ok i := decodeOfEncodeIsTheInstruction i
  rw [wordSteps, hw]

theorem Issued.accepts (h : Issued c s i ws) : Accepts s (encode i) := by
  have hport : s.portNow = PortSample.offer (encode i) := by rw [State.portNow, h.inputs]; rfl
  exact ⟨h.cfgWf, h.idle, by rw [hport]; rfl, by rw [hport]; rfl, by rw [hport]; rfl⟩

theorem Issued.noReset {n : Nat} (h : Issued c s i ws) (hn : instrSteps c i = n) : NoReset n s := by
  rw [← hn, ← wordSteps_encode]
  exact noReset_commandPorts h.inputs

/-- When the instruction has completed, its steps over, the host issues the next one. -/
theorem Issued.next (h : Issued c s i (encode j :: ws)) (hcfg : t.cfg = s.cfg) (hst : t.st = s.st)
    (hclk : t.clk = s.clk) (hin : t.inputs = s.inputs.drop (instrSteps c i)) : Issued c t j ws where
  cfgWf  := hcfg ▸ h.cfgWf
  cfg    := hcfg.trans h.cfg
  idle   := hst.trans h.idle
  clk    := hclk.trans h.clk
  inputs := by
    rw [hin, h.inputs, programPorts_cons, ← wordSteps_encode, List.drop_left' (commandPorts_length _ _)]

theorem Issued.next_afterLatch {l : Bool} (h : Issued c s (.latch l) (encode j :: ws)) : Issued c (afterLatch l s) j ws :=
  h.next (by simp [afterLatch]) (by simp [afterLatch]) (by simp [afterLatch]) (by simp [afterLatch, instrSteps])

theorem Issued.next_afterSend {b : Byte} (h : Issued c s (.send b) (encode j :: ws)) : Issued c (afterSend b s) j ws :=
  h.next rfl rfl rfl rfl

theorem Issued.run_latch {l : Bool} (h : Issued c s (.latch l) ws) : run 1 s = .next (afterLatch l s) :=
  run_latchCommand h.accepts

theorem Issued.run_send {b : Byte} (h : Issued c s (.send b) ws) : run 25 s = .next (afterSend b s) :=
  run_sendCommand h.accepts h.clk (h.noReset rfl)

end

/-- The state after the four commands of a frame built by hand. -/
def afterHandBuilt (g m : Byte) (s : State) : State :=
  afterLatch true (afterSend m (afterSend g (afterLatch false s)))

/-- The four commands append the events of the frame. -/
theorem afterHandBuilt_trace (g m : Byte) (s : State) :
    (afterHandBuilt g m s).trace = s.trace ++ frameEvents g m := by
  simp [afterHandBuilt, afterLatch, afterSend, frameEvents]

/-- Each `SEND` leaves the clock line as it found it. -/
theorem afterHandBuilt_clk (g m : Byte) (s : State) : (afterHandBuilt g m s).clk = s.clk := by
  simp [afterHandBuilt, afterLatch, afterSend]

/-- The second `SEND` shifts the byte of the first one up: the shift stage holds the frame. -/
theorem afterHandBuilt_envSr (g m : Byte) (s : State) : (afterHandBuilt g m s).envSr = g ++ m := by
  simp [afterHandBuilt, afterLatch, afterSend, frame_lo]

/-- After `LATCH 0`, `LATCH 1` makes a rising edge, which shows the frame. -/
theorem afterHandBuilt_envOut (g m : Byte) (s : State) : (afterHandBuilt g m s).envOut = g ++ m := by
  simp [afterHandBuilt, afterLatch, afterSend, frame_lo]

/-- After `LATCH 0` neither `SEND` is a violation (spec/70_reset_and_hazards.md R226). -/
theorem afterHandBuilt_haz1 (g m : Byte) (s : State) : (afterHandBuilt g m s).haz1 = s.haz1 := by
  simp [afterHandBuilt, afterLatch, afterSend]

/-- Each of the four commands is answered. -/
theorem afterHandBuilt_rspLog_length (g m : Byte) (s : State) :
    (afterHandBuilt g m s).rspLog.length = s.rspLog.length + 4 := by
  simp [afterHandBuilt, afterLatch, afterSend]

/-- The 52 steps of the four commands (spec/42_shift_register_frame.md R148). -/
theorem run_handBuiltFrame {g m : Byte} (hc : s.cfg.wf) (hs : s.st = .idle) (hclk : s.clk = false)
    (hin : s.inputs = programPorts s.cfg (handBuiltFrame g m)) : run 52 s = .next (afterHandBuilt g m s) := by
  have hlow : Issued s.cfg s (.latch false) [encode (.send g), encode (.send m), encode (.latch true)] :=
    ⟨hc, rfl, hs, hclk, hin⟩
  have hseg := hlow.next_afterLatch
  have hdsel := hseg.next_afterSend
  have hhigh := hdsel.next_afterSend
  calc run 52 s = run 51 (afterLatch false s) := run_add (n := 51) hlow.run_latch
    _ = run 26 (afterSend g (afterLatch false s)) := run_add (n := 26) hseg.run_send
    _ = run 1 (afterSend m (afterSend g (afterLatch false s))) := run_add (n := 1) hdsel.run_send
    _ = .next (afterHandBuilt g m s) := hhigh.run_latch

/-- Settles O31: each of the two runs ends in a known state, and the two states are compared field by field. -/
theorem handBuiltFrameEqualsWrite : Obligations.HandBuiltFrameEqualsWrite := by
  intro s g m hc hs hclk
  have hissued : Issued s.cfg { s with inputs := programPorts s.cfg [encode (.write g m)] } (.write g m) [] :=
    ⟨hc, rfl, hs, hclk, rfl⟩
  obtain ⟨sr, hwrite, hsr⟩ := run_writeCommand hissued.accepts (hissued.noReset rfl)
  obtain rfl : sr = g ++ m := hsr hclk
  refine ⟨_, _, run_handBuiltFrame hc hs hclk rfl, hwrite, ?_⟩
  exact ⟨afterHandBuilt_trace g m _, rfl, rfl, (afterHandBuilt_clk g m _).trans hclk, rfl, afterHandBuilt_envSr g m _,
    afterHandBuilt_haz1 g m _, rfl, fun _ => afterHandBuilt_envOut g m _, rfl, rfl, rfl, rfl,
    afterHandBuilt_rspLog_length g m _, List.length_append⟩

end Machine

end Sys2Proof
end

section
/-!
The digits of a value and their frames (spec/43_display_multiplexer.md R160 to R163).
-/
namespace Sys2Proof.Machine

/-- The weights of the four digits (spec/43_display_multiplexer.md R160). -/
theorem digitWeight_cases : ∀ i : BitVec 2,
    digitWeight i = 1000 ∨ digitWeight i = 100 ∨ digitWeight i = 10 ∨ digitWeight i = 1 := by decide

theorem digitOf_val (v : Word) (i : BitVec 2) : (digitOf v i).val = v.toNat / digitWeight i % 10 := rfl

/-- A digit depends on the value modulo 10000 only: every weight times 10 divides 10000. -/
theorem digitOf_mod (v : Word) (i : BitVec 2) : digitOf (BitVec.ofNat 16 (v.toNat % 10000)) i = digitOf v i := by
  have hmod : (BitVec.ofNat 16 (v.toNat % 10000)).toNat = v.toNat % 10000 := Nat.mod_eq_of_lt (by omega)
  apply Fin.ext
  rw [digitOf_val, digitOf_val, hmod]
  rcases digitWeight_cases i with h | h | h | h <;> rw [h] <;> omega

/-- Settles O10, from the four weights. -/
theorem digitsOfAValue : Obligations.DigitsOfAValue := by
  refine ⟨fun v => ?_, by decide⟩
  have h0 : (digitOf v 0).val = v.toNat / 1000 % 10 := rfl
  have h1 : (digitOf v 1).val = v.toNat / 100 % 10 := rfl
  have h2 : (digitOf v 2).val = v.toNat / 10 % 10 := rfl
  have h3 : (digitOf v 3).val = v.toNat % 10 := by rw [digitOf_val, show digitWeight 3 = 1 from rfl, Nat.div_one]
  refine ⟨h0, h1, h2, h3, fun i => by omega, fun i => ⟨?_, Nat.div_le_self _ _⟩, fun hv => by omega,
    fun i => (digitOf_mod v i).symm⟩
  rcases digitWeight_cases i with h | h | h | h <;> rw [h] <;> decide

/-- The decimal point is on at the digit of its index when it is enabled (spec/43_display_multiplexer.md R162). -/
theorem dpOn_iff (en : Bool) (ix i : BitVec 2) : dpOn en ix i = true ↔ en = true ∧ ix = i := by
  simp [dpOn]

/-- Settles O11: a frame is its two bytes side by side. -/
theorem decimalPointAndFrameOfADigit : Obligations.DecimalPointAndFrameOfADigit := by
  refine ⟨dpOn_iff, fun c v en ix i => ⟨frame_hi _ _, frame_lo _ _, ?_⟩⟩
  rw [frameFor, frame_lo]
  exact oneDigitEnabled_digitPosRead i

/-- Bit 0 of a frame is bit 0 of its digit-select byte. -/
theorem frameFor_getLsbD_zero (c : Config) (v : Word) (en : Bool) (ix i : BitVec 2) :
    (frameFor c v en ix i).getLsbD 0 = (digitPosRead i).getLsbD 0 :=
  frame_getLsbD _ _ 0

/-- The frames of a value are those of the value modulo 10000 (spec/43_display_multiplexer.md R167). -/
theorem frameFor_mod (c : Config) (v : Word) (en : Bool) (ix i : BitVec 2) :
    frameFor c (BitVec.ofNat 16 (v.toNat % 10000)) en ix i = frameFor c v en ix i := by
  rw [frameFor, digitOf_mod, frameFor]

end Sys2Proof.Machine
end

section
/-!
The steps of the display multiplexer (spec/43_display_multiplexer.md R164, R165, R172): the accept of `RENDER`, the steps
in IDLE and DWELL, and the states in which a step faults.
-/
namespace Sys2Proof.Machine

variable {s t : State}

/-- Settles O16, by row 2 of the step table. -/
theorem idleStepChangesNothing : Obligations.IdleStepChangesNothing :=
  fun _ hc hs hr hv => ⟨_, step_idle hc hr hs hv, .refl _⟩

theorem exec_render (v : Word) (en : Bool) (ix : BitVec 2) (s : State) :
    exec (.render v en ix) s = execRender v en ix s := rfl

/-- Settles O23, the state that `execRender` answers. -/
theorem renderAcceptLoadsTheFirstDigit : Obligations.RenderAcceptLoadsTheFirstDigit :=
  fun s v en ix _ => ⟨_, exec_render v en ix s, .of_eq rfl⟩

/-- The status of a sweep, by its bound (spec/43_display_multiplexer.md R167). -/
theorem renderStatus_eq (v : Word) : renderStatus v = if v.toNat ≤ 9999 then .ok else .ovf := by
  by_cases h : v.toNat ≤ 9999
  · rw [renderStatus, maxDisplayValue, if_pos h, if_neg (by omega)]
  · rw [renderStatus, maxDisplayValue, if_neg h, if_pos (by omega)]

/-- Settles O25, one clause per case of the dwell step. -/
theorem dwellStepCountsDownAndMovesOn : Obligations.DwellStepCountsDownAndMovesOn := by
  intro s hc hr hs hn
  refine ⟨_, step_dwell hc hr hs (by omega), fun h1 => .of_eq ?_, fun h1 hd => .of_eq ?_, fun h1 hd => .of_eq ?_⟩
  · rw [dwellTick_of_ne (s := beginStep s) h1]
    rfl
  · rw [dwellTick_nextDigit (s := beginStep s) h1 hd]
    rfl
  · rw [dwellTick_last (s := beginStep s) h1 hd]
    rfl

/-! ### The faults -/

/-- In SHIFT without an operation a step faults (spec/93_implementation_defined.md U9). -/
theorem step_shiftWithoutOperation (hc : s.cfg.wf) (hr : s.portNow.rst = false) (hs : s.st = .shift)
    (ho : s.opr = .none) : step s = .fault .shiftWithoutOperation := by
  simp [step_of_wf hc, clockEdge, hr, hs, shiftStep, ho]

/-- In SHIFT of `SEND` outside its 24 micro-steps a step faults (spec/93_implementation_defined.md U9). -/
theorem step_sendOutsideByte (hc : s.cfg.wf) (hr : s.portNow.rst = false) (hs : s.st = .shift)
    (ho : s.opr = .send) (hu : ¬ (1 ≤ s.upc.val ∧ s.upc.val ≤ 24)) : step s = .fault .sendOutsideByte := by
  simp only [step_of_wf hc, clockEdge, hr, beginStep_st, hs, shiftStep, beginStep_opr, ho, beginStep_upc, hu]
  rfl

/-- In DWELL with no step to come a step faults (spec/93_implementation_defined.md U9). -/
theorem step_dwellCountZero (hc : s.cfg.wf) (hr : s.portNow.rst = false) (hs : s.st = .dwell)
    (hn : s.dwellcnt = 0) : step s = .fault .dwellCountZero := by
  simp [step_of_wf hc, clockEdge, hr, hs, dwellStep, hn]

/-- Settles O49: the three faults of the step table, and a next state in every other case. -/
theorem faultsAreTheUnreachableStates : Obligations.FaultsAreTheUnreachableStates := by
  intro s f
  constructor
  · intro h
    have hno (t : State) : step s ≠ .next t := by simp [h]
    have hc : s.cfg.wf := by
      by_contra hc
      simp [step, stepOnce, hc] at h
    have hr : s.portNow.rst = false := Bool.eq_false_iff.mpr fun hr => hno _ (step_reset hc hr)
    refine ⟨hc, hr, ?_⟩
    cases hs : s.st with
    | idle =>
      obtain ⟨t, ht⟩ := ControlLegal.next ⟨hc, by simp [hs], by simp [hs]⟩
      exact absurd ht (hno t)
    | shift =>
      cases ho : s.opr with
      | none =>
        rw [step_shiftWithoutOperation hc hr hs ho] at h
        exact .inl ⟨by simpa using h.symm, rfl, rfl⟩
      | send =>
        have hu : ¬ (1 ≤ s.upc.val ∧ s.upc.val ≤ 24) := fun hu => hno _ (step_send hc hr hs ho hu.1 hu.2)
        rw [step_sendOutsideByte hc hr hs ho hu] at h
        exact .inr (.inl ⟨by simpa using h.symm, rfl, rfl, by omega⟩)
      | write => exact absurd (step_write hc hr hs ho) (hno _)
      | render => exact absurd (step_render hc hr hs ho) (hno _)
    | dwell =>
      have hn : s.dwellcnt = 0 := by_contra fun hn => hno _ (step_dwell hc hr hs hn)
      rw [step_dwellCountZero hc hr hs hn] at h
      exact .inr (.inr ⟨by simpa using h.symm, rfl, hn⟩)
  · rintro ⟨hc, hr, ⟨rfl, hs, ho⟩ | ⟨rfl, hs, ho, hu⟩ | ⟨rfl, hs, hn⟩⟩
    · exact step_shiftWithoutOperation hc hr hs ho
    · exact step_sendOutsideByte hc hr hs ho (by omega)
    · exact step_dwellCountZero hc hr hs hn

end Sys2Proof.Machine
end

section
/-!
The dwell as a whole (spec/43_display_multiplexer.md R165): its steps hold the wire, and after its count it ends.
-/
namespace Sys2Proof.Machine

variable {s t : State}

/-- The state after `k` steps of a dwell, `k` at least 1, before what the last of them does at the end of the dwell. -/
def dwelt (k : Nat) (s : State) : State :=
  { s with dwellcnt := s.dwellcnt - k, stepNo := s.stepNo + k, rsp := none, inputs := s.inputs.drop k }

/-- A dwell has a step at least (spec/93_implementation_defined.md U5). -/
theorem dwellTicks_pos {c : Config} : c.wf → 1 ≤ c.dwellTicks
  | ⟨h, _⟩ => h

/-- What a dwell leaves as it is: the wire and the violation mark. -/
structure HoldsDisplay (s t : State) : Prop where
  wire : SameWire t s
  haz1 : t.haz1 = s.haz1

theorem dwelt_holdsDisplay (k : Nat) (s : State) : HoldsDisplay s (dwelt k s) :=
  ⟨⟨rfl, rfl, rfl, rfl, rfl, rfl⟩, rfl⟩

/-- After digit 3 the end of a dwell responds. -/
theorem dwellEnd_last (hd : s.didx = 3) : dwellEnd s = done (renderStatus s.val) s := if_pos hd

/-- Before digit 3 the end of a dwell forms the frame of the next digit. -/
theorem dwellEnd_nextDigit (hd : s.didx ≠ 3) :
    dwellEnd s =
      { s with
        didx := s.didx + 1, frame := frameFor s.cfg s.val s.dpen s.dpidx (s.didx + 1), upc := 0, st := .shift } :=
  if_neg hd

/-- The end of a dwell leaves DWELL and holds the display. -/
theorem dwellEnd_dwelt (k : Nat) (s : State) :
    (dwellEnd (dwelt k s)).st ≠ .dwell ∧ (dwellEnd (dwelt k s)).dwellcnt = s.dwellcnt - k ∧
      HoldsDisplay s (dwellEnd (dwelt k s)) := by
  by_cases hd : s.didx = 3
  · rw [dwellEnd_last (s := dwelt k s) hd]
    exact ⟨by simp, rfl, ⟨rfl, rfl, rfl, rfl, rfl, rfl⟩, rfl⟩
  · rw [dwellEnd_nextDigit (s := dwelt k s) hd]
    exact ⟨by simp, rfl, ⟨rfl, rfl, rfl, rfl, rfl, rfl⟩, rfl⟩

/-- The first `k` steps of a dwell of more than `k` steps. -/
theorem run_dwellPart {k : Nat} (hc : s.cfg.wf) (hs : s.st = .dwell) (hk : k < s.dwellcnt) (hr : NoReset k s) :
    ∃ t, run k s = .next t ∧ t.st = .dwell ∧ t.dwellcnt = s.dwellcnt - k ∧ HoldsDisplay s t := by
  cases k with
  | zero => exact ⟨s, rfl, hs, rfl, ⟨rfl, rfl, rfl, rfl, rfl, rfl⟩, rfl⟩
  | succ k => exact ⟨_, run_dwell k hc hs hk hr, hs, rfl, dwelt_holdsDisplay (k + 1) s⟩

/-- The last step of a dwell. -/
theorem step_dwellLast (hc : s.cfg.wf) (hs : s.st = .dwell) (hn : s.dwellcnt = 1) (hr : NoReset 1 s) :
    step s = .next (dwellEnd (dwelt 1 s)) := by
  rw [step_dwell hc hr.portNow hs (by omega)]
  simp [dwellTick, hn, dwelt, beginStep]

theorem dwelt_one_dwelt (k : Nat) (s : State) : dwelt 1 (dwelt k s) = dwelt (k + 1) s := by
  apply State.ext <;> simp [dwelt, Nat.sub_sub, Nat.add_assoc]

/-- A dwell with its end, after as many steps as its count. -/
theorem run_dwellWhole (hc : s.cfg.wf) (hs : s.st = .dwell) (hn : s.dwellcnt ≠ 0) (hr : NoReset s.dwellcnt s) :
    run s.dwellcnt s = .next (dwellEnd (dwelt s.dwellcnt s)) := by
  obtain ⟨n, hk⟩ := Nat.exists_eq_succ_of_ne_zero hn
  rw [hk] at hr ⊢
  cases n with
  | zero => exact run_succ_of_step 0 (step_dwellLast hc hs hk hr)
  | succ n =>
    have hfirst : run (n + 1) s = .next (dwelt (n + 1) s) := run_dwell n hc hs (by omega) (hr.mono (by omega))
    have hlast := step_dwellLast (s := dwelt (n + 1) s) hc hs (by simp [dwelt, hk]) (NoReset.drop (j := n + 1) hr rfl)
    rw [dwelt_one_dwelt] at hlast
    exact (run_add (n := 1) hfirst).trans (run_succ_of_step 0 hlast)

/-- In a dwell the lines stand as the frame of the digit left them, and the frame is shown. -/
theorem MachineInv.dwellDisplay (hi : MachineInv s) (hs : s.st = .dwell) (h : HoldsDisplay s t) :
    t.trace = s.trace ∧ t.latch = true ∧ t.clk = false ∧ t.data = (digitPosRead s.didx).getLsbD 0 ∧
      (t.haz1 = false → t.envOut = s.frame) := by
  obtain ⟨ho, hlatch, hclk, -⟩ := hi.legal.dwell hs
  have hframe := hi.renderFrame (by simp [hs]) ho
  refine ⟨h.wire.trace, h.wire.latch.trans hlatch, h.wire.clk.trans hclk, ?_, fun hz => ?_⟩
  · rw [h.wire.data, hi.dwellData hs, hframe, frameFor_getLsbD_zero]
  · rw [h.wire.envOut, hi.dwellOut hs (h.haz1.symm.trans hz)]

/-- Settles O35: every step of the dwell holds the display that the invariant describes, and the last one ends it. -/
theorem dwellLastsItsCount : Obligations.DwellLastsItsCount := by
  intro s hi hs hr
  refine ⟨fun k hk => ?_, ?_⟩
  · obtain ⟨t, hrun, hst, hcnt, hhold⟩ := run_dwellPart hi.cfgWf hs hk (hr.mono hk.le)
    exact ⟨t, hrun, hst, hcnt, hi.dwellDisplay hs hhold⟩
  · obtain ⟨-, -, -, hpos, -⟩ := hi.legal.dwell hs
    obtain ⟨hst, hcnt, hhold⟩ := dwellEnd_dwelt s.dwellcnt s
    exact ⟨_, run_dwellWhole hi.cfgWf hs (by omega) hr, hst, hcnt.trans (Nat.sub_self _), hi.dwellDisplay hs hhold⟩

end Sys2Proof.Machine
end

section
/-!
The sweep of `RENDER` as a whole (spec/43_display_multiplexer.md R164 to R169): the run is followed from the latch edge of
one digit to that of the next, where the lines and the external register are known from the digit alone.
-/
namespace Sys2Proof.Machine

variable {s t : State} {v : Word} {en : Bool} {ix : BitVec 2}

/-- The state when the frame in `FRAME` has been sent and latched by `RENDER`, and its dwell begins. -/
def afterFrame (s : State) : State :=
  { s with
    st := .dwell, upc := 49, dwellcnt := s.cfg.dwellTicks
    data := s.frame.getLsbD 0, latch := true, envSr := s.frame, envOut := s.frame
    trace := s.trace ++ ⟨.latch, false⟩ :: (bitEvents (frameBits s.frame 0 16) ++ [⟨.latch, true⟩])
    rsp := none, stepNo := s.stepNo + 50, inputs := s.inputs.drop 50 }

/-- The last micro-step of a frame of `RENDER` (spec/43_display_multiplexer.md R172 row 14). -/
theorem step_renderLast (hc : s.cfg.wf) (hr : s.portNow.rst = false) (hs : s.st = .shift) (ho : s.opr = .render)
    (hu : s.upc = 49) :
    step s = .next { assignPin .latch true (beginStep s) with dwellcnt := s.cfg.dwellTicks, st := .dwell } := by
  rw [step_render hc hr hs ho, renderMicroStep_last (s := beginStep s) hu, beginStep_cfg]

/-- The 50 micro-steps of a frame of `RENDER`. -/
theorem run_renderFrame (hc : s.cfg.wf) (hs : s.st = .shift) (hclk : s.clk = false) (hu : s.upc = 0)
    (ho : s.opr = .render) (hr : NoReset 50 s) : run 50 s = .next (afterFrame s) := by
  have hframe := run_frame hc hs hclk hu (.inr ho) (hr.mono (by decide))
  refine (run_add (n := 1) hframe).trans (Eq.trans (run_succ_of_step 0
    (step_renderLast hc (NoReset.portNow (k := 0) (NoReset.drop (j := 49) hr rfl)) hs ho rfl)) (congrArg _ ?_))
  apply State.ext <;> simp [afterFrame]

/-- The state when `n` steps after the accept in `s` of a `RENDER` the dwell of digit `i` begins, with the events `es`
since. -/
def shownDigit (v : Word) (en : Bool) (ix i : BitVec 2) (n : Nat) (es : List PinEvent) (s : State) : State :=
  { s with
    val := v, dpen := en, dpidx := ix, didx := i, frame := frameFor s.cfg v en ix i
    opr := .render, st := .dwell, upc := 49, dwellcnt := s.cfg.dwellTicks
    data := (frameFor s.cfg v en ix i).getLsbD 0, latch := true
    envSr := frameFor s.cfg v en ix i, envOut := frameFor s.cfg v en ix i
    trace := s.trace ++ es, rsp := none, stepNo := s.stepNo + n, inputs := s.inputs.drop n }

/-- The events of a digit's frame, as its sixteen bits. -/
theorem digitFrameEvents_eq (c : Config) (v : Word) (en : Bool) (ix i : BitVec 2) :
    digitFrameEvents c v en ix i =
      ⟨.latch, false⟩ :: (bitEvents (frameBits (frameFor c v en ix i) 0 16) ++ [⟨.latch, true⟩]) := by
  rw [digitFrameEvents, frameEvents_eq, frameFor, frameBits_frame]

/-- The accept of `RENDER` and the frame of digit 0. -/
theorem run_firstDigit (hA : Accepts s (encode (.render v en ix))) (hclk : s.clk = false) (hr : NoReset 51 s) :
    run 51 s = .next (shownDigit v en ix 0 51 (digitFrameEvents s.cfg v en ix 0) s) := by
  set a : State := { beginStep s with
    val := v, dpen := en, dpidx := ix, didx := 0, frame := frameFor s.cfg v en ix 0
    opr := .render, upc := 0, st := .shift } with ha
  have haccept : step s = .next a := step_takes hA.cfgWf (hA.takes (decode_encode_render v en ix))
  have hframe := run_renderFrame (s := a) hA.cfgWf rfl hclk rfl rfl (hr.step rfl)
  refine (run_succ_of_step 50 haccept).trans (hframe.trans (congrArg _ ?_))
  apply State.ext <;> simp [afterFrame, shownDigit, digitFrameEvents_eq, Nat.add_assoc, ha]

/-- The dwell of a digit and the frame of the next one. -/
theorem run_nextDigit {i : BitVec 2} {n : Nat} {es : List PinEvent} (hc : s.cfg.wf) (hclk : s.clk = false) (hi : i ≠ 3)
    (hr : NoReset (n + digitSteps s.cfg) s) :
    run (digitSteps s.cfg) (shownDigit v en ix i n es s) =
      .next (shownDigit v en ix (i + 1) (n + digitSteps s.cfg) (es ++ digitFrameEvents s.cfg v en ix (i + 1)) s) := by
  have hticks := dwellTicks_pos hc
  set a := shownDigit v en ix i n es s with ha
  have hr' : NoReset (s.cfg.dwellTicks + 50) a := NoReset.drop (j := n) (by rwa [Nat.add_comm _ 50]) rfl
  have hdwell := run_dwellWhole (s := a) hc rfl (Nat.ne_of_gt hticks) (hr'.mono (Nat.le_add_right _ _))
  rw [dwellEnd_nextDigit (by exact hi)] at hdwell
  set b : State := { dwelt a.dwellcnt a with
    didx := i + 1, frame := frameFor s.cfg v en ix (i + 1), upc := 0, st := .shift } with hb
  have hframe := run_renderFrame (s := b) hc rfl hclk rfl rfl (NoReset.drop hr' rfl)
  rw [digitSteps, Nat.add_comm 50]
  refine (run_add (n := 50) hdwell).trans (hframe.trans (congrArg _ ?_))
  apply State.ext <;> simp [afterFrame, shownDigit, digitFrameEvents_eq, Nat.add_assoc, dwelt, ha, hb]

/-- The state when `RENDER v`, accepted in `s`, has completed (spec/43_display_multiplexer.md R164 to R169). -/
def afterSweep (v : Word) (en : Bool) (ix : BitVec 2) (s : State) : State :=
  { s with
    val := v, dpen := en, dpidx := ix, didx := 3
    frame := frameFor s.cfg v en ix 3, opr := .render, upc := 49, dwellcnt := 0
    data := false, latch := true
    status := renderStatus v, rsp := some ⟨renderStatus v, s.pattern⟩
    rspLog := s.rspLog ++ [⟨s.stepNo + (1 + 4 * digitSteps s.cfg), ⟨renderStatus v, s.pattern⟩⟩]
    trace := s.trace ++ sweepEvents s.cfg v en ix
    envSr := frameFor s.cfg v en ix 3, envOut := frameFor s.cfg v en ix 3
    stepNo := s.stepNo + (1 + 4 * digitSteps s.cfg)
    inputs := s.inputs.drop (1 + 4 * digitSteps s.cfg) }

/-- The dwell of digit 3, which ends the sweep in IDLE. -/
theorem run_lastDwell {n : Nat} (hc : s.cfg.wf) (hs : s.st = .idle) (hn : n + s.cfg.dwellTicks = 1 + 4 * digitSteps s.cfg)
    (hr : NoReset (1 + 4 * digitSteps s.cfg) s) :
    run s.cfg.dwellTicks (shownDigit v en ix 3 n (sweepEvents s.cfg v en ix) s) = .next (afterSweep v en ix s) := by
  have hticks := dwellTicks_pos hc
  set a := shownDigit v en ix 3 n (sweepEvents s.cfg v en ix) s with ha
  have hdwell := run_dwellWhole (s := a) hc rfl (Nat.ne_of_gt hticks) (NoReset.drop (j := n) (by rwa [← hn] at hr) rfl)
  rw [dwellEnd_last (by rfl)] at hdwell
  refine hdwell.trans (congrArg _ ?_)
  apply State.ext
  case data => exact frameFor_getLsbD_zero _ _ _ _ 3
  all_goals simp [dwelt, ha, shownDigit, afterSweep, hs, Nat.add_assoc, hn]

/-- The whole sweep. -/
theorem run_sweep (hA : Accepts s (encode (.render v en ix))) (hclk : s.clk = false)
    (hr : NoReset (1 + 4 * digitSteps s.cfg) s) :
    run (1 + 4 * digitSteps s.cfg) s = .next (afterSweep v en ix s) := by
  have hc := hA.cfgWf
  set L := digitSteps s.cfg with hL
  have hlen : 51 + L + L + L + s.cfg.dwellTicks = 1 + 4 * L := by
    rw [hL, digitSteps]
    omega
  have h0 := run_firstDigit hA hclk (hr.mono (by omega))
  have h1 := (run_add (n := L) h0).trans (run_nextDigit hc hclk (by decide) (hr.mono (by omega)))
  have h2 := (run_add (n := L) h1).trans (run_nextDigit hc hclk (by decide) (hr.mono (by omega)))
  have h3 := (run_add (n := L) h2).trans (run_nextDigit hc hclk (by decide) (hr.mono (by omega)))
  rw [← hlen, run_add h3]
  exact run_lastDwell hc hA.idle hlen hr

/-- Settles O32: the run ends in the stated state itself. -/
theorem renderSweepsTheFourDigits : Obligations.RenderSweepsTheFourDigits := by
  intro s v en ix hA hclk hr
  refine ⟨_, run_sweep hA hclk hr, .of_eq ?_⟩
  rw [← renderStatus_eq]
  rfl

/-! ### A value above 9999 -/

/-- The events of a sweep are those of the value modulo 10000 (spec/43_display_multiplexer.md R167). -/
theorem sweepEvents_mod (c : Config) (v : Word) (en : Bool) (ix : BitVec 2) :
    sweepEvents c (BitVec.ofNat 16 (v.toNat % 10000)) en ix = sweepEvents c v en ix := by
  simp only [sweepEvents, digitFrameEvents, digitOf_mod]

/-- The sweep of a command that the host issues in IDLE. -/
theorem run_issuedSweep (v : Word) (en : Bool) (ix : BitVec 2) (hc : s.cfg.wf) (hs : s.st = .idle)
    (hclk : s.clk = false) :
    run (1 + 4 * digitSteps s.cfg) { s with inputs := programPorts s.cfg [encode (.render v en ix)] } =
      .next (afterSweep v en ix { s with inputs := programPorts s.cfg [encode (.render v en ix)] }) := by
  have hissued : Issued s.cfg { s with inputs := programPorts s.cfg [encode (.render v en ix)] } (.render v en ix) [] :=
    ⟨hc, rfl, hs, hclk, rfl⟩
  exact run_sweep hissued.accepts hclk (hissued.noReset rfl)

/-- When the sweep of a command that the host issues ends, its port samples are used up. -/
theorem drop_renderPorts (c : Config) (v : Word) (en : Bool) (ix : BitVec 2) :
    (programPorts c [encode (.render v en ix)]).drop (1 + 4 * digitSteps c) = [] := by
  apply List.drop_eq_nil_of_le
  simp [programPorts, wordSteps_encode, instrSteps]

/-- Settles O34: each of the two runs ends in a known state, and the two states have the same frames and events. -/
theorem overflowSweepDiffersInItsStatusOnly : Obligations.OverflowSweepDiffersInItsStatusOnly := by
  intro s v en ix hc hs hclk hv
  set w : Word := BitVec.ofNat 16 (v.toNat % 10000) with hw
  have hwle : w.toNat ≤ 9999 := by
    rw [hw, BitVec.toNat_ofNat]
    omega
  have hovf : renderStatus v = .ovf := by rw [renderStatus_eq, if_neg (by omega)]
  have hok : renderStatus w = .ok := by rw [renderStatus_eq, if_pos hwle]
  refine ⟨_, _, run_issuedSweep v en ix hc hs hclk, run_issuedSweep w en ix hc hs hclk, hs, hovf, hok, .of_eq ?_⟩
  have hframe (i : BitVec 2) : frameFor s.cfg w en ix i = frameFor s.cfg v en ix i := frameFor_mod ..
  have hevents : sweepEvents s.cfg w en ix = sweepEvents s.cfg v en ix := sweepEvents_mod ..
  apply State.ext
  case inputs => exact (drop_renderPorts s.cfg v en ix).trans (drop_renderPorts s.cfg w en ix).symm
  all_goals simp [afterSweep, hovf, hframe, hevents, digitSteps]

end Sys2Proof.Machine
end

section
/-!
The display during a sweep (spec/43_display_multiplexer.md R169, R170): the steps still to come say where in the sweep the
block is, so in which step the latch line rises; between two latch edges the output stage does not move.
-/
namespace Sys2Proof.Machine

variable {s t : State} {c : Config} {v : Word} {en : Bool} {ix : BitVec 2} {n : Nat}

/-- The block is in the sweep of a `RENDER` with `n` steps to come, its response included. -/
structure InSweep (c : Config) (v : Word) (en : Bool) (ix : BitVec 2) (n : Nat) (t : State) : Prop where
  inv   : MachineInv t
  busy  : t.st ≠ .idle
  opr   : t.opr = .render
  cfg   : t.cfg = c
  val   : t.val = v
  dpen  : t.dpen = en
  dpidx : t.dpidx = ix
  steps : remainingSteps t = n

/-! ### The run through a sweep -/

/-- A busy step leaves the operation (spec/10_state.md R26). -/
theorem StepEvent.opr_of_busy (h : StepEvent s t) (hr : s.portNow.rst = false) (hs : s.st ≠ .idle) : t.opr = s.opr := by
  cases hst : s.st with
  | idle => exact absurd hst hs
  | shift =>
    obtain ⟨hopr, -⟩ := h.sequencer_of_shift hr hst
    exact hopr
  | dwell =>
    obtain ⟨hopr, -⟩ := h.sequencer_of_dwell hr hst
    exact hopr

/-- A step of a sweep that is not its last goes on with the sweep. -/
theorem InSweep.event (h : InSweep c v en ix (n + 1) s) (hn : n ≠ 0) (hr : s.portNow.rst = false) (hE : StepEvent s t) :
    InSweep c v en ix n t := by
  rcases hE.responds_or_counts h.inv.controlLegal hr h.busy with ⟨h1, -⟩ | ⟨h1, hbusy, -, -⟩
  · have := h.steps
    omega
  · have hno : ¬ ∃ v en ix, Takes s (.render v en ix) := fun ⟨_, _, _, _, hidle, _⟩ => h.busy hidle
    obtain ⟨hval, hdpen, hdpidx⟩ := hE.value_eq hr hno
    obtain ⟨hcfg, -⟩ := hE.cfg_inputs
    exact
      { inv := h.inv.event hE
        busy := hbusy
        opr := (hE.opr_of_busy hr h.busy).trans h.opr
        cfg := hcfg.trans h.cfg
        val := hval.trans h.val
        dpen := hdpen.trans h.dpen
        dpidx := hdpidx.trans h.dpidx
        steps := by have := h.steps; omega }

/-- The steps of a sweep before its last. -/
theorem InSweep.run {k : Nat} (h : InSweep c v en ix (n + k) s) (hn : n ≠ 0) (hr : NoReset k s) :
    ∃ t, run k s = .next t ∧ InSweep c v en ix n t := by
  induction k generalizing s with
  | zero => exact ⟨s, rfl, h⟩
  | succ k ih =>
    obtain ⟨u, hu⟩ := h.inv.controlLegal.next
    have hE := step_event hu
    obtain ⟨-, hin⟩ := hE.cfg_inputs
    rw [run_succ_of_step k hu]
    exact ih (h.event (n := n + k) (by omega) hr.portNow hE) (hr.step hin)

/-- The accept of `RENDER` starts a sweep. -/
theorem InSweep.of_accept (hT : Takes s (.render v en ix)) (hi : MachineInv s) :
    InSweep s.cfg v en ix (4 * digitSteps s.cfg)
      { beginStep s with
        val := v, dpen := en, dpidx := ix, didx := 0, frame := frameFor s.cfg v en ix 0
        opr := .render, upc := 0, st := .shift } where
  inv   := hi.event (.render hT)
  busy  := by simp
  opr   := rfl
  cfg   := rfl
  val   := rfl
  dpen  := rfl
  dpidx := rfl
  steps := by
    rw [remainingSteps_of_render rfl rfl]
    simp [digitSteps]
    omega

/-- The state after `k + 1` steps of a command `RENDER`. -/
theorem run_inSweep {k : Nat} (hA : Accepts s (encode (.render v en ix))) (hi : MachineInv s)
    (hr : NoReset (1 + 4 * digitSteps s.cfg) s) (hk : k < 4 * digitSteps s.cfg) (hrun : run (k + 1) s = .next t) :
    t.portNow.rst = false ∧ InSweep s.cfg v en ix (4 * digitSteps s.cfg - k) t := by
  have hT := hA.takes (decode_encode_render v en ix)
  have haccept := step_takes hA.cfgWf hT
  have hstart := InSweep.of_accept hT hi
  rw [← Nat.sub_add_cancel hk.le] at hstart
  obtain ⟨u, hu, hsweep⟩ := hstart.run (by omega) (NoReset.step (hr.mono (by omega)) rfl)
  obtain rfl : t = u := by simpa [(run_succ_of_step k haccept).trans hu] using hrun.symm
  obtain ⟨-, hin, -⟩ := run_bookkeeping (hr.mono (by omega)) hrun
  have hrest : NoReset (k + 1 + 1) s := hr.mono (by omega)
  exact ⟨NoReset.portNow (k := 0) (hrest.drop hin), hsweep⟩

/-! ### The latch edges -/

/-- The first micro-step of a frame lowers the latch line, the next 48 leave it (spec/42_shift_register_frame.md R146). -/
theorem frameUop_latch {u : Nat} (hu : u < 49) (s : State) : (frameUop u s).latch = (decide (u ≠ 0) && s.latch) := by
  by_cases h0 : u = 0
  · simp [h0]
  · rw [frameUop_inner (by omega) (by omega), shiftUop_eq]
    split <;> simp [h0]

/-- In a sweep the latch line rises in the last micro-step of a frame only. -/
theorem InSweep.latchRises_iff (h : InSweep c v en ix n s) (hr : s.portNow.rst = false) (hE : StepEvent s t) :
    (s.latch = false ∧ t.latch = true) ↔ s.st = .shift ∧ s.upc.val = 49 := by
  cases hs : s.st with
  | idle => exact absurd hs h.busy
  | dwell =>
    obtain ⟨-, hlatch, -⟩ := h.inv.legal.dwell hs
    simp [hlatch]
  | shift =>
    have hlatch := (hE.sameWire_of_shift hr hs).latch
    by_cases hu : s.upc.val = 49
    · have hlow : s.latch = false := h.inv.frameLatch hs (by simp [h.opr]) (by omega)
      simp [hlatch, hlow, hu]
    · rw [frameUop_latch (by omega), beginStep_latch] at hlatch
      simp +contextual [hlatch, hu]

/-- A quotient and a remainder are determined by the number that they make. -/
theorem quotient_remainder_unique {L q q' r r' : Nat} (hr : r < L) (hr' : r' < L) (h : r + q * L = r' + q' * L) :
    r = r' ∧ q = q' := by
  have hrem : r = r' := by
    rw [← Nat.mod_eq_of_lt hr, ← Nat.mod_eq_of_lt hr', ← Nat.add_mul_mod_self_right r q, h, Nat.add_mul_mod_self_right]
  subst hrem
  exact ⟨rfl, Nat.eq_of_mul_eq_mul_right (Nat.zero_lt_of_lt hr) (Nat.add_left_cancel h)⟩

/-- The steps to come name the digit, and the place in its frame or its dwell. -/
theorem InSweep.position (h : InSweep c v en ix n s) :
    ∃ r, n = 1 + (r + (3 - s.didx.toNat) * digitSteps c) ∧
      ((s.st = .shift ∧ r + s.upc.val = 49 + c.dwellTicks) ∨ (s.st = .dwell ∧ r < c.dwellTicks)) := by
  have hsteps := h.steps
  rw [← h.cfg]
  cases hs : s.st with
  | idle => exact absurd hs h.busy
  | shift =>
    rw [remainingSteps_of_render hs h.opr] at hsteps
    exact ⟨49 - s.upc.val + s.cfg.dwellTicks, by omega, .inl ⟨rfl, by omega⟩⟩
  | dwell =>
    rw [remainingSteps_of_dwell hs] at hsteps
    obtain ⟨-, -, -, h1, hle⟩ := h.inv.legal.dwell hs
    exact ⟨s.dwellcnt - 1, by omega, .inr ⟨rfl, by omega⟩⟩

/-- The latch line of digit `i` rises when a dwell and the later digits are still to come after the step. -/
theorem InSweep.latchEdge_iff (h : InSweep c v en ix n s) :
    (s.st = .shift ∧ s.upc.val = 49) ↔ ∃ i : BitVec 2, n = 1 + (c.dwellTicks + (3 - i.toNat) * digitSteps c) := by
  obtain ⟨r, hn, hpos⟩ := h.position
  constructor
  · rintro ⟨hs, hu⟩
    obtain ⟨-, hr⟩ | ⟨hs', -⟩ := hpos
    · exact ⟨s.didx, by rw [hn, show r = c.dwellTicks by omega]⟩
    · simp [hs] at hs'
  · rintro ⟨i, hi⟩
    obtain ⟨hr, -⟩ := quotient_remainder_unique (by rw [digitSteps]; omega) (by rw [digitSteps]; omega)
      (Nat.add_left_cancel (hn.symm.trans hi))
    obtain ⟨hs, hr'⟩ | ⟨-, hr'⟩ := hpos
    · exact ⟨hs, by omega⟩
    · omega

/-- When a whole dwell and the later digits are still to come, the frame of digit `i` is shown. -/
theorem InSweep.shown {i : BitVec 2} (h : InSweep c v en ix (c.dwellTicks + (3 - i.toNat) * digitSteps c) s)
    (hz : s.haz1 = false) : s.envOut = frameFor c v en ix i := by
  obtain ⟨r, hn, hpos⟩ := h.position
  have hticks : 1 ≤ c.dwellTicks := h.cfg ▸ dwellTicks_pos h.inv.cfgWf
  have hdigit : r = c.dwellTicks - 1 ∧ 3 - s.didx.toNat = 3 - i.toNat :=
    quotient_remainder_unique (L := digitSteps c) (by rw [digitSteps]; omega) (by rw [digitSteps]; omega) (by omega)
  obtain ⟨hr, hd⟩ := hdigit
  have hdidx : s.didx = i := by
    apply BitVec.eq_of_toNat_eq
    omega
  obtain ⟨-, hr'⟩ | ⟨hs, -⟩ := hpos
  · omega
  · rw [h.inv.dwellOut hs hz, h.inv.renderFrame h.busy h.opr, h.cfg, h.val, h.dpen, h.dpidx, hdidx]

/-! ### The display between the latch edges -/

/-- No step clears the violation mark. -/
theorem StepEvent.haz1_of_next (h : StepEvent s t) (hz : t.haz1 = false) : s.haz1 = false := by
  cases h with
  | send =>
    simp at hz
    obtain ⟨hs, -⟩ := hz
    exact hs
  | _ => simpa using hz

/-- The last step of a run. -/
theorem step_of_runs {k : Nat} {a b : State} (ha : run k s = .next a) (hb : run (k + 1) s = .next b) :
    step a = .next b := by
  obtain ⟨u, hu, h0⟩ := run_succ_cases ((run_add (n := 1) ha).symm.trans hb)
  obtain rfl : u = b := by simpa using h0
  exact hu

/-- The digits up to `i` and those after it are four. -/
theorem digits_mul (i : BitVec 2) (L : Nat) : (3 - i.toNat) * L + i.toNat * L = 3 * L := by
  rw [← Nat.add_mul, Nat.sub_add_cancel (by omega)]

section

variable (hA : Accepts s (encode (.render v en ix))) (hi : MachineInv s) (hr : NoReset (1 + 4 * digitSteps s.cfg) s)
include hA hi hr

/-- From the accept of `RENDER` to its response, the latch line rises in four steps (spec/43_display_multiplexer.md
R169). -/
theorem latchRises_iff_of_run {k : Nat} {a b : State} (hk : k < 1 + 4 * digitSteps s.cfg) (ha : run k s = .next a)
    (hb : run (k + 1) s = .next b) :
    (a.latch = false ∧ b.latch = true) ↔ ∃ i : BitVec 2, k + 1 = 51 + i.toNat * digitSteps s.cfg := by
  have hstep := step_of_runs ha hb
  cases k with
  | zero =>
    obtain rfl : s = a := by simpa using ha
    have hlatch : b.latch = s.latch := by rw [next_of_render hstep (hA.takes (decode_encode_render v en ix))]; rfl
    have hlate (i : BitVec 2) : 0 + 1 ≠ 51 + i.toNat * digitSteps s.cfg := by omega
    simp +contextual [hlatch, hlate]
  | succ k =>
    obtain ⟨hrst, hsweep⟩ := run_inSweep hA hi hr (by omega) ha
    rw [hsweep.latchRises_iff hrst (step_event hstep), hsweep.latchEdge_iff]
    refine exists_congr fun i => ?_
    have hdigits := digits_mul i (digitSteps s.cfg)
    have hL : digitSteps s.cfg = 50 + s.cfg.dwellTicks := rfl
    omega

/-- In a step that is none of the four, the output stage does not move. -/
theorem output_kept_of_run {k : Nat} {a b : State} (hk : k < 1 + 4 * digitSteps s.cfg) (ha : run k s = .next a)
    (hb : run (k + 1) s = .next b) (hno : ∀ i : BitVec 2, k + 1 ≠ 51 + i.toNat * digitSteps s.cfg)
    (hz : b.haz1 = false) : a.haz1 = false ∧ b.envOut = a.envOut := by
  have hstep := step_of_runs ha hb
  have hrise := mt (latchRises_iff_of_run hA hi hr hk ha hb).mp (not_exists.mpr hno)
  obtain ⟨-, hkeep⟩ := outputStageMovesAtLatchEdgesOnly a b hstep hz
  exact ⟨(step_event hstep).haz1_of_next hz, hkeep hrise⟩

/-- Before the first latch edge the display is as it was (spec/43_display_multiplexer.md R170). -/
theorem run_beforeFirstEdge {k : Nat} (hk : k ≤ 50) :
    ∃ t, run k s = .next t ∧ (t.haz1 = false → t.envOut = s.envOut) := by
  induction k with
  | zero => exact ⟨s, rfl, fun _ => rfl⟩
  | succ k ih =>
    obtain ⟨a, ha, hout⟩ := ih (by omega)
    obtain ⟨b, hb, -⟩ := run_total stepKeepsTheInvariant (k + 1) hi
    refine ⟨b, hb, fun hz => ?_⟩
    obtain ⟨hza, hkeep⟩ := output_kept_of_run hA hi hr (by rw [digitSteps]; omega) ha hb (fun i => by omega) hz
    exact hkeep.trans (hout hza)

/-- From the latch edge of digit `i` to the next one, or to the response, the frame of digit `i` is shown
(spec/43_display_multiplexer.md R170). -/
theorem run_showsDigit (i : BitVec 2) {j : Nat} (hj : j < digitSteps s.cfg)
    (hk : 51 + i.toNat * digitSteps s.cfg + j ≤ 1 + 4 * digitSteps s.cfg) :
    ∃ t, run (51 + i.toNat * digitSteps s.cfg + j) s = .next t ∧
      (t.haz1 = false → t.envOut = frameFor s.cfg v en ix i) := by
  obtain ⟨b, hb, -⟩ := run_total stepKeepsTheInvariant (51 + i.toNat * digitSteps s.cfg + j) hi
  refine ⟨b, hb, ?_⟩
  induction j generalizing b with
  | zero =>
    have hdigits := digits_mul i (digitSteps s.cfg)
    have hL : digitSteps s.cfg = 50 + s.cfg.dwellTicks := rfl
    have hticks := dwellTicks_pos hi.cfgWf
    obtain ⟨-, hsweep⟩ := run_inSweep (k := 50 + i.toNat * digitSteps s.cfg) hA hi hr (by omega)
      (by rwa [Nat.add_right_comm])
    rw [show 4 * digitSteps s.cfg - (50 + i.toNat * digitSteps s.cfg) =
      s.cfg.dwellTicks + (3 - i.toNat) * digitSteps s.cfg by omega] at hsweep
    exact hsweep.shown
  | succ j ih =>
    obtain ⟨a, ha, -⟩ := run_total stepKeepsTheInvariant (51 + i.toNat * digitSteps s.cfg + j) hi
    have hno (i' : BitVec 2) : 51 + i.toNat * digitSteps s.cfg + j + 1 ≠ 51 + i'.toNat * digitSteps s.cfg := by
      intro h
      have := quotient_remainder_unique (L := digitSteps s.cfg) (r := j + 1) (r' := 0) (q := i.toNat) (q' := i'.toNat)
        hj (by omega) (by omega)
      omega
    intro hz
    obtain ⟨hza, hkeep⟩ := output_kept_of_run hA hi hr (by omega) ha hb hno hz
    exact hkeep.trans (ih (by omega) (by omega) a ha hza)

end

/-- Settles O33: the latch edges come from the steps still to come, and between them the output stage does not move. -/
theorem sweepShowsEachDigitInTurn : Obligations.SweepShowsEachDigitInTurn :=
  fun _ _ _ _ hA hi hr => ⟨fun _ => run_beforeFirstEdge hA hi hr, fun i _ => run_showsDigit hA hi hr i,
    fun _ _ _ => latchRises_iff_of_run hA hi hr⟩

end Sys2Proof.Machine
end

section
/-!
Exceptions (spec/60_exceptions.md): the rejection of an illegal word (R192), and the bound on the steps until the block is
IDLE again (R197).
-/
namespace Sys2Proof.Machine

variable {s : State}

/-! ### The rejection of an illegal word -/

/-- A word outside the opcode table decodes to no instruction. -/
theorem decode_error_of_no_row {w : CmdWord} (h : ∀ r ∈ opcodeTable, r.holds w = false) : ∃ e, decode w = .error e := by
  cases hw : decode w with
  | error e => exact ⟨e, rfl⟩
  | ok i =>
    obtain ⟨r, hr, hholds⟩ := (legal_iff_in_row w).mp ⟨i, hw⟩
    simp [h r hr] at hholds

/-- The accept step of an illegal word only responds, with the old `PATTERN`. -/
theorem step_illegal {w : CmdWord} {e : IllegalWord} (hA : Accepts s w) (hw : decode w = .error e) :
    step s = .next (respond .illegalCmd s.pattern (beginStep s)) := by
  have hidle : (beginStep s).st = .idle := hA.idle
  rw [step_accept hA, accept, hw, raise_eq, Rejection.status, done_of_idle hidle, beginStep_pattern]

/-- Settles O17: the word decodes to no instruction, and its accept step only responds. -/
theorem illegalWordIsRejected : Obligations.IllegalWordIsRejected := by
  intro s w hA hrows
  obtain ⟨e, hw⟩ := decode_error_of_no_row hrows
  exact ⟨_, step_illegal hA hw, .of_eq rfl⟩

/-! ### The way back to IDLE -/

/-- An operation in progress has no more to come than a whole sweep. -/
theorem MachineInv.remainingSteps_le (hi : MachineInv s) : remainingSteps s ≤ 4 * digitSteps s.cfg := by
  have hL : digitSteps s.cfg = 50 + s.cfg.dwellTicks := rfl
  have hdigits : (3 - s.didx.toNat) * digitSteps s.cfg ≤ 3 * digitSteps s.cfg := Nat.mul_le_mul_right _ (Nat.sub_le _ _)
  cases hs : s.st with
  | idle => simp [remainingSteps, hs]
  | shift =>
    rcases hi.legal.shiftOpr hs with ho | ho | ho
    · rw [remainingSteps_of_send hs ho]
      omega
    · rw [remainingSteps_of_write hs ho]
      omega
    · rw [remainingSteps_of_render hs ho]
      omega
  | dwell =>
    have hcnt := hi.legal.cnt
    rw [remainingSteps_of_dwell hs]
    omega

/-- Settles O55: a busy block is IDLE when its remaining steps are over. -/
theorem blockReturnsToIdle : Obligations.BlockReturnsToIdle := by
  intro s hi hr
  by_cases hs : s.st = .idle
  · exact ⟨0, s, Nat.zero_le _, rfl, hs⟩
  · have hle := hi.remainingSteps_le
    obtain ⟨t, hrun, hanswered⟩ := run_remainingSteps hi.controlLegal hs (hr.mono hle)
    exact ⟨_, t, hle, hrun, hanswered.idle⟩

end Sys2Proof.Machine
end

section
/-!
Reset and hazards (spec/70_reset_and_hazards.md): what a reset leaves (R220 to R223), and which step records the
violation mark (R226).
-/
namespace Sys2Proof.Machine

variable {s t : State}

/-- Settles O13: the step resets the block, and a reset makes no rising edge that the external register could see. -/
theorem resetStepFromAnyState : Obligations.ResetStepFromAnyState := by
  intro s hc hr
  refine ⟨resetBlock (beginStep s), step_reset hc hr, ?_⟩
  simp

/-- A step other than the accept of `SEND` leaves the violation mark, a reset included (log 7). -/
theorem StepEvent.haz1_eq (h : StepEvent s t) (hnoSend : ¬ ∃ b, Takes s (.send b)) : t.haz1 = s.haz1 := by
  cases h with
  | send hT => exact absurd ⟨_, hT⟩ hnoSend
  | _ => simp

/-- Settles O47: the accept of `SEND` adds the level of the latch line to the mark, and every other event keeps it. -/
theorem hazardMarkIsRecordedAndKept : Obligations.HazardMarkIsRecordedAndKept := by
  intro s t h
  by_cases hsend : ∃ b, Takes s (.send b)
  · have hmark : t.haz1 = (s.haz1 || s.latch) := by
      obtain ⟨b, hT⟩ := hsend
      rw [next_of_send h hT]
    simp [hmark, hsend]
  · have hkept : t.haz1 = s.haz1 := (step_event h).haz1_eq hsend
    simp [hkept, hsend]

end Sys2Proof.Machine
end

section
/-!
The configurations that the model refuses (spec/93_implementation_defined.md U5, U3): a step is refused for them and for
nothing else, because no row of the step table (spec/43_display_multiplexer.md R172) refuses.
-/
namespace Sys2Proof

/-- A configuration is bad when it has one of the two defects. -/
theorem Config.not_wf_iff (c : Config) :
    ¬ c.wf ↔ c.dwellTicks = 0 ∨ ∃ d : Fin 10, c.segTab[d].getLsbD 7 = false := by
  simp only [Config.wf, not_and_or, not_forall, Bool.not_eq_true, Nat.not_le, Nat.lt_one_iff]

namespace Machine

variable {s : State}

theorem accept_ne_refused (w : CmdWord) (s : State) (r : Refusal) : accept w s ≠ .refused r := by
  obtain ⟨t, ht⟩ := accept_next w s
  simp [ht]

/-- A SHIFT step faults or answers a next state. -/
theorem shiftStep_ne_refused (s : State) (r : Refusal) : shiftStep s ≠ .refused r := by
  unfold shiftStep
  cases s.opr with
  | none | write | render => simp
  | send => dsimp only; split <;> simp

/-- A DWELL step faults or answers a next state. -/
theorem dwellStep_ne_refused (s : State) (r : Refusal) : dwellStep s ≠ .refused r := by
  unfold dwellStep
  split <;> simp

/-- No row of the step table refuses. -/
theorem clockEdge_ne_refused (p : PortSample) (s : State) (r : Refusal) : clockEdge p s ≠ .refused r := by
  unfold clockEdge
  split
  · simp
  · cases s.st with
    | idle =>
      dsimp only
      split
      · exact accept_ne_refused p.cmd s r
      · simp
    | shift => exact shiftStep_ne_refused s r
    | dwell => exact dwellStep_ne_refused s r

theorem step_of_not_wf (hc : ¬ s.cfg.wf) : step s = .refused .badConfiguration := if_neg hc

theorem step_refused_iff (s : State) (r : Refusal) : step s = .refused r ↔ r = .badConfiguration ∧ ¬ s.cfg.wf := by
  by_cases hc : s.cfg.wf
  · have hno : step s ≠ .refused r := step_of_wf hc ▸ clockEdge_ne_refused _ _ r
    exact iff_of_false hno fun ⟨_, hbad⟩ => hbad hc
  · rw [step_of_not_wf hc, and_iff_left hc]
    simp [eq_comm]

/-- Settles O50: a step is refused exactly when the configuration is bad, whatever the rest of the state. -/
theorem onlyBadConfigurationsAreRefused : Obligations.OnlyBadConfigurationsAreRefused := fun s r =>
  (step_refused_iff s r).trans (and_congr_right fun _ => s.cfg.not_wf_iff)

end Machine
end Sys2Proof
end
